-- ==== Sys2Proof/Word.lean ====
section
/-! DEFINITION. The one word type of the machine (spec rules R8, R9, R52): the u8. -/

namespace Sys2Proof

/-- A u8: register contents, the program counter, addresses, the flags register and every memory cell (rules R8, R9). -/
abbrev Byte := BitVec 8

end Sys2Proof
end

