-- ==== Sys2Proof/Config.lean ====
section
/-! DEFINITION. The implementation parameters of rule R8, each fixed by the spec ("No parameter is left open").
There is no free value in this machine: the spec leaves no result of any instruction and no reset value undefined
(rules R42, R44), so this file holds no opaque constant. -/

namespace Sys2Proof.Config

/-- Number of general registers (rules R8, R20). -/
abbrev numRegs : Nat := 8

/-- Number of memory bytes, and the largest image a load may hold (rules R8, R45, R173). -/
abbrev memSize : Nat := 256

/-- What a byte of memory holds until something writes it (rules R42, R46). -/
def memReset : Byte := 0x00#8

/-- The register that is the stack pointer (rules R8, R23). -/
abbrev spIndex : Fin 8 := 7

/-- Reset value of the stack pointer, 0xF4 (rules R8, R25). -/
def spReset : Byte := 0xF4#8

/-- Reset value of the program counter (rule R30). -/
def pcReset : Byte := 0x00#8

/-- Reset value of the flags register (rule R33). -/
def flReset : Byte := 0x00#8

/-- The address the host's load writes its first byte to (rules R8, R172). -/
def loadAddress : Byte := 0x00#8

end Sys2Proof.Config
end

