-- ==== Sys2Proof/Syntax.lean ====
section
/-! DEFINITION. The instructions: one constructor per row of spec/opcode_table.json (rules R2, R74). -/

namespace Sys2Proof

/-- The 13 instructions (rule R2). An operand is the WHOLE byte of the encoding, as rule R67 says: a register-index
operand `a` or `b` names register x[a] when it is 0 to 7; any other value is part of the instruction too, and using it
raises RegisterIndexFault (rule R77). `imm` is LDI's immediate, any value. -/
inductive Instr where
  /-- PRN A: append x[A] to the output stream (rule R90). -/
  | prn (a : Byte)
  /-- LDI A,imm: x[A] <- imm (rule R91). -/
  | ldi (a imm : Byte)
  /-- MUL A,B: x[A] <- x[A] * x[B] mod 256 (rule R104). -/
  | mul (a b : Byte)
  /-- ADD A,B: x[A] <- x[A] + x[B] mod 256 (rule R105). -/
  | add (a b : Byte)
  /-- CMP A,B: fl <- the one flag of x[A] against x[B] (rule R106). -/
  | cmp (a b : Byte)
  /-- PUSH A (rule R116). -/
  | push (a : Byte)
  /-- POP A (rule R117). -/
  | pop (a : Byte)
  /-- CALL A (rule R126). -/
  | call (a : Byte)
  /-- RET (rule R127). -/
  | ret
  /-- JMP A (rule R128). -/
  | jmp (a : Byte)
  /-- JEQ A (rule R129). -/
  | jeq (a : Byte)
  /-- JNE A (rule R130). -/
  | jne (a : Byte)
  /-- HLT (rule R131). -/
  | hlt
  deriving DecidableEq, Repr

end Sys2Proof
end

