-- ==== Sys2Proof/WellFormed.lean ====
section
/-! DEFINITION. Which instructions name only registers that exist (rules R67, R76, R77). An ill-formed instruction
still decodes and still runs: where it uses the bad operand it takes RegisterIndexFault (rule R77). -/

namespace Sys2Proof

/-- The register-index operands of an instruction, A before B: the column "A" and "B" of rule R66's formats, as rule R77
lists them. LDI's second operand is an immediate and is not among them. -/
def Instr.regOperands : Instr → List Byte
  | .prn a => [a]
  | .ldi a _ => [a]
  | .mul a b => [a, b]
  | .add a b => [a, b]
  | .cmp a b => [a, b]
  | .push a => [a]
  | .pop a => [a]
  | .call a => [a]
  | .ret => []
  | .jmp a => [a]
  | .jeq a => [a]
  | .jne a => [a]
  | .hlt => []

/-- A register-index byte is valid when it is 0 to 7 (rule R67). -/
def validIndex (b : Byte) : Bool := decide (b.toNat < Config.numRegs)

/-- Every register-index operand is valid: "a register-index byte is valid or invalid as a whole ... and an immediate
takes every value" (rule R76). -/
def Instr.wellFormed (i : Instr) : Bool := i.regOperands.all validIndex

end Sys2Proof
end

