-- ==== Sys2Proof/Decode.lean ====
section
/-! DEFINITION. The dispatch_decoder (rules R66, R68, R74, R78, R79), the decoder over bytes and, after it, the encoder
(rule R83). The opcode values stand here twice, on purpose: in binary in `Handler.opcode`, from the table of rule R74,
and in hexadecimal in `encode`, from the table of rule R83. -/

namespace Sys2Proof

/-- The four formats of rule R66. -/
inductive Format where
  /-- N: no operand. -/
  | n
  /-- R: one register. -/
  | r
  /-- RI: register, immediate. -/
  | ri
  /-- RR: two registers. -/
  | rr
  deriving DecidableEq, Repr

/-- Instruction length in bytes by format (rules R66, R68). -/
def Format.len : Format → Nat
  | .n => 1
  | .r => 2
  | .ri => 3
  | .rr => 3

/-- The classes the decoder tells apart: the 13 handlers of rule R78 (`cls` of rule R79 without INVALID). -/
inductive Handler where
  | prn | ldi | mul | add | cmp | push | pop | call | ret | jmp | jeq | jne | hlt
  deriving DecidableEq, Repr

/-- The opcode map, in the source's binary (rule R74). -/
def Handler.opcode : Handler → Byte
  | .prn => 0b01000111#8
  | .ldi => 0b10000010#8
  | .mul => 0b10100010#8
  | .add => 0b10100000#8
  | .cmp => 0b10100111#8
  | .push => 0b01000101#8
  | .pop => 0b01000110#8
  | .call => 0b01010000#8
  | .ret => 0b00010001#8
  | .jmp => 0b01010100#8
  | .jeq => 0b01010101#8
  | .jne => 0b01010110#8
  | .hlt => 0b00000001#8

/-- The format column of rule R74. -/
def Handler.format : Handler → Format
  | .prn => .r
  | .ldi => .ri
  | .mul => .rr
  | .add => .rr
  | .cmp => .rr
  | .push => .r
  | .pop => .r
  | .call => .r
  | .ret => .n
  | .jmp => .r
  | .jeq => .r
  | .jne => .r
  | .hlt => .n

/-- `len` of rule R79 (rule R68). -/
def Handler.len (h : Handler) : Nat := h.format.len

/-- The ALU operation tags of rule R100: 00 ADD, 01 MUL, 10 CMP. The value 11 is never produced. -/
def aluOpAdd : BitVec 2 := 0b00#2
def aluOpMul : BitVec 2 := 0b01#2
def aluOpCmp : BitVec 2 := 0b10#2

/-- `alu_op` of rule R79: "meaningful for MUL, ADD, CMP only", so no value for the others. -/
def Handler.aluOp : Handler → Option (BitVec 2)
  | .mul => some aluOpMul
  | .add => some aluOpAdd
  | .cmp => some aluOpCmp
  | .prn => none
  | .ldi => none
  | .push => none
  | .pop => none
  | .call => none
  | .ret => none
  | .jmp => none
  | .jeq => none
  | .jne => none
  | .hlt => none

/-- `a_reg` of rule R79: A is a register index in all of formats R, RI, RR. -/
def Handler.aReg (h : Handler) : Bool := decide (h.format ≠ .n)

/-- `b_reg` of rule R79: B is a register index in format RR. -/
def Handler.bReg (h : Handler) : Bool := decide (h.format = .rr)

/-- `b_imm` of rule R79: B is an immediate in format RI. -/
def Handler.bImm (h : Handler) : Bool := decide (h.format = .ri)

/-- All handlers, in the order of rule R74's table. -/
def handlers : List Handler :=
  [.prn, .ldi, .mul, .add, .cmp, .push, .pop, .call, .ret, .jmp, .jeq, .jne, .hlt]

/-- `Dispatch(IC)`: matches all 8 bits; `none` is INVALID (rules R78, R69, R75). -/
def dispatch (ic : Byte) : Option Handler := handlers.find? fun h => h.opcode == ic

/-- The instruction of a handler with operand bytes A and B; a byte the format does not hold is dropped (rule R76). -/
def Handler.instr (h : Handler) (a b : Byte) : Instr :=
  match h with
  | .prn => .prn a
  | .ldi => .ldi a b
  | .mul => .mul a b
  | .add => .add a b
  | .cmp => .cmp a b
  | .push => .push a
  | .pop => .pop a
  | .call => .call a
  | .ret => .ret
  | .jmp => .jmp a
  | .jeq => .jeq a
  | .jne => .jne a
  | .hlt => .hlt

/-- The handler an instruction is run by. -/
def Instr.handler : Instr → Handler
  | .prn _ => .prn
  | .ldi _ _ => .ldi
  | .mul _ _ => .mul
  | .add _ _ => .add
  | .cmp _ _ => .cmp
  | .push _ => .push
  | .pop _ => .pop
  | .call _ => .call
  | .ret => .ret
  | .jmp _ => .jmp
  | .jeq _ => .jeq
  | .jne _ => .jne
  | .hlt => .hlt

/-- What decoding a byte sequence gives. -/
inductive Decoded where
  /-- An instruction, and the bytes after it. -/
  | instr (i : Instr) (rest : List Byte)
  /-- The opcode byte is none of the 13 (rule R75): in a step this is DecodeFault (rule R146). -/
  | undefinedOpcode (ic : Byte)
  /-- The sequence ends inside an instruction. A step never meets it: it always has three bytes (rule R71). -/
  | truncated
  deriving DecidableEq, Repr

/-- The operand bytes of rule R66's formats, taken from the bytes after the opcode. -/
def decodeOperands (h : Handler) (bs : List Byte) : Decoded :=
  match h.format, bs with
  | .n, bs => .instr (h.instr 0#8 0#8) bs
  | .r, a :: bs => .instr (h.instr a 0#8) bs
  | .ri, a :: b :: bs => .instr (h.instr a b) bs
  | .rr, a :: b :: bs => .instr (h.instr a b) bs
  | .r, [] => .truncated
  | .ri, [] => .truncated
  | .ri, [_] => .truncated
  | .rr, [] => .truncated
  | .rr, [_] => .truncated

/-- The decoder, total on any bytes (rules R65, R80, R81). -/
def decode : List Byte → Decoded
  | [] => .truncated
  | ic :: bs =>
    match dispatch ic with
    | some h => decodeOperands h bs
    | none => .undefinedOpcode ic

/-- The decoded instruction alone. -/
def Decoded.instr? : Decoded → Option Instr
  | .instr i _ => some i
  | .undefinedOpcode _ => none
  | .truncated => none

/-- The encoder: the bytes of every instruction, from the table of rule R83. -/
def encode : Instr → List Byte
  | .prn a => [0x47#8, a]
  | .ldi a imm => [0x82#8, a, imm]
  | .mul a b => [0xA2#8, a, b]
  | .add a b => [0xA0#8, a, b]
  | .cmp a b => [0xA7#8, a, b]
  | .push a => [0x45#8, a]
  | .pop a => [0x46#8, a]
  | .call a => [0x50#8, a]
  | .ret => [0x11#8]
  | .jmp a => [0x54#8, a]
  | .jeq a => [0x55#8, a]
  | .jne a => [0x56#8, a]
  | .hlt => [0x01#8]

/-- The three bytes of a fetch window from a table word: bit 0 is the least significant bit of the first byte, the second
byte is bits 15..8, and every bit above `nbits` is 0. -/
def tableBytes (nbits w : Nat) : List Byte :=
  let v := w % 2 ^ nbits
  [BitVec.ofNat 8 v, BitVec.ofNat 8 (v / 256), BitVec.ofNat 8 (v / 65536)]

/-- The instruction the decoder reads from a table word. -/
def decodeTableWord (nbits w : Nat) : Option Instr := (decode (tableBytes nbits w)).instr?

end Sys2Proof
end

