-- ==== Sys2Proof/Machine/State.lean ====
section
/-! DEFINITION. The architectural state of spec/10_state.md and 20_memory.md, the reasons a step can stop, and reset
(rules R42, R170). -/

namespace Sys2Proof.Machine

/-- The run state (rules R35, R36). -/
inductive RunState where
  | running
  | halted
  | faulted
  deriving DecidableEq, Repr

/-- The eight general registers R0 to R7, one u8 each (rules R20, R22). R7 is the stack pointer: one storage cell
(rule R23). -/
structure RegFile where
  r0 : Byte
  r1 : Byte
  r2 : Byte
  r3 : Byte
  r4 : Byte
  r5 : Byte
  r6 : Byte
  r7 : Byte
  deriving DecidableEq, Repr

/-- The fault record (rule R37). -/
structure FaultRecord where
  /-- `fault_cause`, a code of rule R145. -/
  cause : Byte
  /-- `fault_pc`, the pc of the faulting instruction. -/
  pc : Byte
  /-- `fault_ic`, its opcode byte. -/
  ic : Byte
  /-- `fault_info`, the offending register-index byte, 0 for the other causes. -/
  info : Byte
  deriving DecidableEq, Repr

/-- The causes of rule R145: the only faults the core raises (rule R149). -/
inductive FaultCause where
  | decodeFault
  | registerIndexFault
  | aluOpFault
  deriving DecidableEq, Repr

/-- The memory's listed bytes, addresses strictly rising, none equal to what an unlisted address reads as
(`Memory.wf`). -/
abbrev Memory := List Host.Cell

/-- Everything the spec gives the machine (rules R38, R40 and R41 say that there is nothing more). -/
structure State where
  /-- The one 256-byte memory (rule R45). -/
  mem : Memory
  /-- R0 to R7 (rule R20). -/
  regs : RegFile
  /-- The program counter (rule R27). -/
  pc : Byte
  /-- The flags register: bit 0 E, bit 1 G, bit 2 L (rule R31). -/
  fl : Byte
  /-- The run state (rule R35). -/
  run : RunState
  /-- The fault record (rule R37). -/
  fault : FaultRecord
  /-- The output stream, oldest byte first (rule R39). -/
  output : List Byte
  deriving DecidableEq, Repr

/-- Why a step does not happen at all. The spec's own faults (rule R145) are NOT here: a fault is taken, as rule R150
says, in a next state whose run state is FAULTED. -/
inductive Fault where
  /-- Raised by `step` alone: run = HALTED, and "no further step executes" (rules R35, R36, R131). Safe: nothing runs. -/
  | stepWhileHalted
  /-- Raised by `step` alone: run = FAULTED, which only reset leaves (rules R35, R36, R151). Safe: nothing runs. -/
  | stepWhileFaulted
  deriving DecidableEq, Repr

/-- What the model gives no meaning. -/
inductive Refusal where
  /-- Raised by an arm of `exec` whose instruction has no meaning yet; no arm does. Safe. -/
  | notModelled (mnemonic : String)
  /-- Raised by `load`: an image of more than 256 bytes is refused as a whole (rule R173). Safe: the run does not start. -/
  | imageTooLarge
  /-- Raised by `launchFile`: a malformed program file (rules R86, R163; item I6). Safe: the run does not start. -/
  | malformedProgramFile
  deriving DecidableEq, Repr

/-- What a step, a meaning or a launch answers. -/
abbrev Out := Host.Outcome State Fault Refusal

/-- The fault record at reset: all zero (rules R37, R42). -/
def FaultRecord.zero : FaultRecord := { cause := 0x00#8, pc := 0x00#8, ic := 0x00#8, info := 0x00#8 }

/-- The register file at reset: "registers zero-filled except SP = 0xF4" (rule R25). -/
def RegFile.reset : RegFile :=
  { r0 := 0x00#8, r1 := 0x00#8, r2 := 0x00#8, r3 := 0x00#8, r4 := 0x00#8, r5 := 0x00#8, r6 := 0x00#8, r7 := Config.spReset }

/-- The machine right after reset (rules R42, R170). -/
def State.reset : State :=
  { mem := [], regs := RegFile.reset, pc := Config.pcReset, fl := Config.flReset, run := .running,
    fault := FaultRecord.zero, output := [] }

end Sys2Proof.Machine
end

