-- ==== Sys2Proof/Machine/Ops.lean ====
section
/-! DEFINITION. The named operations over registers, stack pointer, memory, program counter, flags, output and run state,
and the ONE operation that takes a fault (rule R150). There is no return from a fault beside it: "There is no return
from a fault and no recovery" (rule R151). -/

namespace Sys2Proof.Machine

/-! ## The register file -/

/-- Read of x[i] (rules R10, R20). No register is hardwired (rule R22). -/
def RegFile.get (f : RegFile) (i : Fin 8) : Byte :=
  match i with
  | 0 => f.r0
  | 1 => f.r1
  | 2 => f.r2
  | 3 => f.r3
  | 4 => f.r4
  | 5 => f.r5
  | 6 => f.r6
  | 7 => f.r7

/-- Write of x[i] (rules R10, R20). -/
def RegFile.set (f : RegFile) (i : Fin 8) (v : Byte) : RegFile :=
  match i with
  | 0 => { f with r0 := v }
  | 1 => { f with r1 := v }
  | 2 => { f with r2 := v }
  | 3 => { f with r3 := v }
  | 4 => { f with r4 := v }
  | 5 => { f with r5 := v }
  | 6 => { f with r6 := v }
  | 7 => { f with r7 := v }

/-- x[i] in a state (rule R10). -/
def State.reg (s : State) (i : Fin 8) : Byte := s.regs.get i

/-- x[i] <- v (rule R10). -/
def State.setReg (s : State) (i : Fin 8) (v : Byte) : State := { s with regs := s.regs.set i v }

/-! ## The stack pointer -/

/-- `sp` is another name for x[7] (rules R10, R23). -/
def State.sp (s : State) : Byte := s.reg Config.spIndex

/-- SPdec: x[7] <- (x[7] - 1) mod 256 (rule R24). -/
def State.spDec (s : State) : State := s.setReg Config.spIndex (s.sp - 1#8)

/-- SPinc: x[7] <- (x[7] + 1) mod 256 (rule R24). -/
def State.spInc (s : State) : State := s.setReg Config.spIndex (s.sp + 1#8)

/-! ## Memory -/

/-- The byte at an address: the listed one, or the reset byte 0x00 (rules R46, R58). -/
def Memory.read (m : Memory) (a : Nat) : Byte :=
  match m with
  | [] => Config.memReset
  | (b, v) :: m => if b = a then v else Memory.read m a

/-- Put a cell at its place in a list without that address. -/
def Memory.insert (m : Memory) (a : Nat) (v : Byte) : Memory :=
  match m with
  | [] => [(a, v)]
  | (b, w) :: m => if a < b then (a, v) :: (b, w) :: m else (b, w) :: Memory.insert m a v

/-- Forget whatever an address is listed with. -/
def Memory.erase (m : Memory) (a : Nat) : Memory := m.filter fun c => c.1 ≠ a

/-- Set the byte at an address, keeping the canonical form: the reset byte is never listed. -/
def Memory.write (m : Memory) (a : Nat) (v : Byte) : Memory :=
  if v = Config.memReset then m.erase a else (m.erase a).insert a v

/-- The canonical form: addresses strictly rising, all inside the 256 bytes of rule R45, and no entry equal to what an
unlisted address reads as. -/
abbrev Memory.wf (m : Memory) : Prop :=
  m.Pairwise (fun c d => c.1 < d.1) ∧ ∀ c ∈ m, c.1 < Config.memSize ∧ c.2 ≠ Config.memReset

/-- MemRead(addr, 1): every u8 is an address, so no read faults (rules R11, R47, R54). -/
def State.memRead (s : State) (a : Byte) : Byte := s.mem.read a.toNat

/-- MemWrite(addr, 1, v): every address is plain storage (rules R11, R47, R53). -/
def State.memWrite (s : State) (a v : Byte) : State := { s with mem := s.mem.write a.toNat v }

/-! ## Program counter, flags, output, run state -/

/-- pc <- target (rule R10). -/
def State.setPc (s : State) (target : Byte) : State := { s with pc := target }

/-- pc <- (pc + n) mod 256 (rule R29). -/
def State.advance (s : State) (n : Byte) : State := s.setPc (s.pc + n)

/-- fl <- v, the whole byte (rules R32, R34). -/
def State.setFl (s : State) (v : Byte) : State := { s with fl := v }

/-- Emit(v): append to the output stream (rules R11, R39). -/
def State.emit (s : State) (v : Byte) : State := { s with output := s.output ++ [v] }

/-- run <- HALTED (rules R36, R131). -/
def State.halt (s : State) : State := { s with run := .halted }

/-! ## Taking a fault -/

/-- The cause codes of rule R145. -/
def FaultCause.code : FaultCause → Byte
  | .decodeFault => 1#8
  | .registerIndexFault => 2#8
  | .aluOpFault => 3#8

/-- `raise F(info)`: run <- FAULTED and the fault record; nothing else changes (rules R11, R150). `ic` is the opcode
byte of the faulting instruction. -/
def State.raise (s : State) (cause : FaultCause) (ic info : Byte) : State :=
  { s with run := .faulted, fault := { cause := cause.code, pc := s.pc, ic := ic, info := info } }

end Sys2Proof.Machine
end

