-- ==== Sys2Proof/Machine/Flags.lean ====
section
/-! DEFINITION. The flags register's bits (rule R31), the flag computation of CMP (rules R101, R106) and the branch
condition (rules R32, R34). ADD and MUL compute no flag (rule R102). -/

namespace Sys2Proof.Machine

/-- fl with only E (bit 0) set (rule R31). -/
def flagE : Byte := 0x01#8
/-- fl with only G (bit 1) set (rule R31). -/
def flagG : Byte := 0x02#8
/-- fl with only L (bit 2) set (rule R31). -/
def flagL : Byte := 0x04#8

/-- The byte CMP writes to fl: an UNSIGNED comparison, exactly one of E, L, G (rule R106). -/
def cmpFlags (a b : Byte) : Byte :=
  if a = b then flagE else if a.toNat < b.toNat then flagL else flagG

/-- `fl_e` = fl[0], the branch condition of JEQ and JNE (rule R34). -/
def State.flE (s : State) : Bool := s.fl.getLsbD 0

end Sys2Proof.Machine
end

