-- ==== Sys2Proof/Machine/Operands.lean ====
section
/-! DEFINITION. The operand forms (rules R66, R67). A register-index operand goes through `chkReg`; an immediate is the
byte itself, with no extension; the stack pointer is `State.sp`, with `State.spDec` and `State.spInc`. -/

namespace Sys2Proof.Machine

/-- `chkreg(b)` (rules R11, R147): continue with register b when it is 0 to 7, else raise RegisterIndexFault(b) for the
instruction of handler `h`. The byte is narrowed to an index only after the check (rule R26). Every meaning calls it
before its first write, so the state of a fault is the state before the instruction. -/
def chkReg (h : Handler) (b : Byte) (s : State) (k : Fin 8 → Out) : Out :=
  if hb : b.toNat < 8 then k ⟨b.toNat, hb⟩ else .next (s.raise .registerIndexFault h.opcode b)

end Sys2Proof.Machine
end

