-- ==== Sys2Proof/Machine/Alu.lean ====
section
/-! DEFINITION. The alu_byte block and MUL, ADD, CMP (spec/41_alu.md). -/

namespace Sys2Proof.Machine

/-- What alu_byte drives: a result for x[A], or a flags value (rule R101; the write enables are the constructor). -/
inductive AluOut where
  /-- res_we = 1, fl_we = 0. -/
  | res (v : Byte)
  /-- res_we = 0, fl_we = 1. -/
  | flags (v : Byte)
  deriving DecidableEq, Repr

/-- `Alu(op, a, b)`; `none` is the tag 11, AluOpFault (rules R100, R101, R102, R103). -/
def aluByte (op : BitVec 2) (a b : Byte) : Option AluOut :=
  if op = aluOpAdd then some (.res (a + b))
  else if op = aluOpMul then some (.res (a * b))
  else if op = aluOpCmp then some (.flags (cmpFlags a b))
  else none

/-- Apply what alu_byte drives: the result to x[A], the flags value to fl. -/
def State.applyAlu (s : State) (i : Fin 8) : AluOut → State
  | .res v => s.setReg i v
  | .flags v => s.setFl v

/-- An instruction of format RR over alu_byte: check A, then B, then operate, then pc + 3 (rules R104 to R106, R152).
The tag 11, which no instruction issues, raises AluOpFault with info 0 (rules R103, R145, R148). -/
def aluRR (op : BitVec 2) (h : Handler) (a b : Byte) (s : State) : Out :=
  chkReg h a s fun i => chkReg h b s fun j =>
    match aluByte op (s.reg i) (s.reg j) with
    | some out => .next ((s.applyAlu i out).advance 3#8)
    | none => .next (s.raise .aluOpFault h.opcode 0#8)

/-- MUL A,B (rule R104). -/
def execMul (a b : Byte) (s : State) : Out := aluRR aluOpMul .mul a b s

/-- ADD A,B (rule R105). -/
def execAdd (a b : Byte) (s : State) : Out := aluRR aluOpAdd .add a b s

/-- CMP A,B (rule R106). -/
def execCmp (a b : Byte) (s : State) : Out := aluRR aluOpCmp .cmp a b s

end Sys2Proof.Machine
end

