-- ==== Sys2Proof/Machine/Control.lean ====
section
/-! DEFINITION. CALL, RET, JMP, JEQ, JNE and HLT (spec/43_control.md). -/

namespace Sys2Proof.Machine

/-- Take a branch through register A (rules R125, R128). -/
def jumpReg (h : Handler) (a : Byte) (s : State) : Out :=
  chkReg h a s fun i => .next (s.setPc (s.reg i))

/-- CALL A (rule R126): the return address is pc + 2; the target x[A] is read AFTER SP is decremented. -/
def execCall (a : Byte) (s : State) : Out :=
  chkReg .call a s fun i =>
    let s1 := s.spDec
    .next ((s1.memWrite s1.sp (s1.pc + 2#8)).setPc (s1.reg i))

/-- RET (rule R127). -/
def execRet (s : State) : Out := .next (s.setPc (s.memRead s.sp)).spInc

/-- JMP A (rule R128). -/
def execJmp (a : Byte) (s : State) : Out := jumpReg .jmp a s

/-- JEQ A (rule R129): A is checked only when the branch is taken. -/
def execJeq (a : Byte) (s : State) : Out :=
  if s.flE = true then jumpReg .jeq a s else .next (s.advance 2#8)

/-- JNE A (rule R130): A is checked only when the branch is taken. -/
def execJne (a : Byte) (s : State) : Out :=
  if s.flE = false then jumpReg .jne a s else .next (s.advance 2#8)

/-- HLT (rule R131): run <- HALTED and nothing else. -/
def execHlt (s : State) : Out := .next s.halt

end Sys2Proof.Machine
end

