-- ==== Sys2Proof/Machine/OutputLoad.lean ====
section
/-! DEFINITION. PRN and LDI (spec/40_output_load.md). -/

namespace Sys2Proof.Machine

/-- PRN A (rule R90). -/
def execPrn (a : Byte) (s : State) : Out :=
  chkReg .prn a s fun i => .next ((s.emit (s.reg i)).advance 2#8)

/-- LDI A,imm (rule R91). -/
def execLdi (a imm : Byte) (s : State) : Out :=
  chkReg .ldi a s fun i => .next ((s.setReg i imm).advance 3#8)

end Sys2Proof.Machine
end

