-- ==== Sys2Proof/Machine/Stack.lean ====
section
/-! DEFINITION. PUSH and POP (spec/42_stack.md). Statements run in the order the rule writes them, each seeing the writes
before it (rule R12). -/

namespace Sys2Proof.Machine

/-- PUSH A (rule R116): x[A] is read AFTER SP is decremented, so PUSH R7 writes the decremented SP. -/
def execPush (a : Byte) (s : State) : Out :=
  chkReg .push a s fun i =>
    let s1 := s.spDec
    .next ((s1.memWrite s1.sp (s1.reg i)).advance 2#8)

/-- POP A (rule R117): the increment applies to x[7] as the load left it, so POP R7 gives memory[SP] + 1. -/
def execPop (a : Byte) (s : State) : Out :=
  chkReg .pop a s fun i => .next ((s.setReg i (s.memRead s.sp)).spInc.advance 2#8)

end Sys2Proof.Machine
end

