-- ==== Sys2Proof/Machine/Fetch.lean ====
section
/-! DEFINITION. Fetch (rules R70, R71), what a step does besides running an instruction (rules R35, R72, R146), and
placing bytes where the fetch reads them. -/

namespace Sys2Proof.Machine

/-- IC, A and B: the bytes at pc, pc + 1 and pc + 2, all modulo 256 (rules R70, R71). -/
def State.window (s : State) : List Byte :=
  [s.memRead s.pc, s.memRead (s.pc + 1#8), s.memRead (s.pc + 2#8)]

/-- The instruction at pc, if the opcode byte there is one of the 13. HLT is decoded with the others and its operand
bytes are read with theirs: the loop's own test of IC = 0x01 gives the same step (90_conflicts.md C3; reads have no
effect, rules R53, R63). -/
def State.fetched (s : State) : Option Instr := (decode s.window).instr?

/-- Loop step 4 on an undefined opcode: raise DecodeFault, info 0 (rules R72, R145, R146). -/
def undefinedOpcode (s : State) : Out := .next (s.raise .decodeFault (s.memRead s.pc) 0#8)

/-- A step asked for after HLT: none executes (rules R35, R36). -/
def stepHalted (_s : State) : Out := .fault .stepWhileHalted

/-- A step asked for after a fault: none executes (rules R35, R36, R151). -/
def stepFaulted (_s : State) : Out := .fault .stepWhileFaulted

/-- Write consecutive bytes from an address, wrapping (rules R29, R50): the loop of the load (rule R172). -/
def State.storeBytes (s : State) (a : Byte) : List Byte → State
  | [] => s
  | v :: vs => (s.memWrite a v).storeBytes (a + 1#8) vs

/-- A table word's bytes stored at pc, with run = RUNNING, without which nothing is fetched (rule R35). -/
def State.placeWord (s : State) (nbits w : Nat) : State :=
  { s.storeBytes s.pc (tableBytes nbits w) with run := .running }

end Sys2Proof.Machine
end

