-- ==== Sys2Proof/Machine/Step.lean ====
section
/-! DEFINITION. One step of the core (rule R72). -/

namespace Sys2Proof.Machine

/-- Step(): only while run = RUNNING; fetch, decode, execute. The loop itself never changes pc (rule R73). -/
def step (s : State) : Host.Outcome State Fault Refusal :=
  match s.run with
  | .running =>
    match s.fetched with
    | some i => exec i s
    | none => undefinedOpcode s
  | .halted => stepHalted s
  | .faulted => stepFaulted s

/-- The state with a table word's instruction stored where the next step fetches it. -/
def State.withFetchWord (s : State) (nbits w : Nat) : State := s.placeWord nbits w

end Sys2Proof.Machine
end

