-- ==== Sys2Proof/Machine/HostInterface.lean ====
section
/-! DEFINITION. The host's interactions of rule R5 other than step: load (rules R172, R173), status and what is observed
at the end of a run (rules R37, R177), the text of the output (rule R92), the assembler's text (rules R82, R83) and, for
reference, the Loader's program file (rules R85, R86). -/

namespace Sys2Proof.Machine

/-! ## Load -/

/-- The host's load: the image written from address 0 in file order, or, when it is longer than memory, refused as a
whole (rules R172, R173). -/
def load (image : List Byte) (s : State) : Out :=
  if image.length ≤ Config.memSize then .next (s.storeBytes Config.loadAddress image) else .refused .imageTooLarge

/-- Reset, then the one load of a run, before its first step (rules R171, R172, R174). -/
def launch (image : List Byte) : Out := load image State.reset

/-! ## Status -/

/-- What the status interaction shows: the run state, with the fault record when FAULTED (rules R5, R37). -/
inductive Status where
  | running
  | halted
  | faulted (record : FaultRecord)
  deriving DecidableEq, Repr

/-- The status of a state (rules R5, R37). -/
def State.status (s : State) : Status :=
  match s.run with
  | .running => .running
  | .halted => .halted
  | .faulted => .faulted s.fault

/-- A run has ended exactly when run is HALTED or FAULTED (rule R177). -/
def State.ended (s : State) : Bool := decide (s.run ≠ .running)

/-! ## Text of the output -/

/-- The character of a decimal digit. -/
def digitChar (n : Nat) : Char := Char.ofNat (48 + n % 10)

/-- The shortest unsigned decimal numeral of a byte: no sign, no leading zeros, 0 is `0` (rule R92). -/
def decimal (v : Byte) : List Char :=
  let n := v.toNat
  if n < 10 then [digitChar n]
  else if n < 100 then [digitChar (n / 10), digitChar n]
  else [digitChar (n / 100), digitChar (n / 10), digitChar n]

/-- One byte of output as the host prints it: the numeral and one newline (rule R92), which is LF here (DESIGN CHOICE, log
entry 10). -/
def renderByte (v : Byte) : List Char := decimal v ++ ['\n']

/-- Everything a run has printed: a function of the output stream (rule R92). -/
def State.printed (s : State) : List Char := s.output.flatMap renderByte

/-! ## The assembler's text -/

/-- R0 to R7, as text (rule R82). -/
def regName (b : Byte) : List Char := 'R' :: decimal b

/-- The instruction as the source writes it: mnemonic, then operands in decimal, A before B (rules R82, R83). -/
def assembly : Instr → List Char
  | .prn a => "PRN ".toList ++ regName a
  | .ldi a imm => "LDI ".toList ++ regName a ++ ",".toList ++ decimal imm
  | .mul a b => "MUL ".toList ++ regName a ++ ",".toList ++ regName b
  | .add a b => "ADD ".toList ++ regName a ++ ",".toList ++ regName b
  | .cmp a b => "CMP ".toList ++ regName a ++ ",".toList ++ regName b
  | .push a => "PUSH ".toList ++ regName a
  | .pop a => "POP ".toList ++ regName a
  | .call a => "CALL ".toList ++ regName a
  | .ret => "RET".toList
  | .jmp a => "JMP ".toList ++ regName a
  | .jeq a => "JEQ ".toList ++ regName a
  | .jne a => "JNE ".toList ++ regName a
  | .hlt => "HLT".toList

/-! ## The program file (outside the core, rule R7; its format is rule R86's) -/

/-- What one line of a program file gives (rule R86). -/
inductive Line where
  /-- A comment or blank line: it starts with neither 0 nor 1. -/
  | ignored
  /-- A significant line: one byte. -/
  | byte (b : Byte)
  /-- A significant line whose first eight characters are not a binary literal: a load error. -/
  | malformed
  deriving DecidableEq, Repr

/-- A binary digit. -/
def binaryDigit (c : Char) : Option Nat :=
  if c = '0' then some 0 else if c = '1' then some 1 else none

/-- `n` binary digits, most significant first, after the value `acc` of the digits before them. -/
def binaryLiteral (n acc : Nat) (cs : List Char) : Option Nat :=
  match n, cs with
  | 0, _ => some acc
  | _ + 1, [] => none
  | n + 1, c :: cs =>
    match binaryDigit c with
    | some d => binaryLiteral n (2 * acc + d) cs
    | none => none

/-- One line: most significant bit first, characters after the eighth not part of the byte (rule R86). -/
def parseLine (cs : List Char) : Line :=
  match cs with
  | [] => .ignored
  | c :: rest =>
    match binaryDigit c with
    | none => .ignored
    | some _ =>
      match binaryLiteral 8 0 (c :: rest) with
      | some n => .byte (BitVec.ofNat 8 n)
      | none => .malformed

/-- The lines of a text, cut at each newline, which is LF here (DESIGN CHOICE, log entry 10). -/
def textLines (cs : List Char) : List (List Char) :=
  match cs with
  | [] => [[]]
  | c :: cs =>
    if c = '\n' then [] :: textLines cs
    else
      match textLines cs with
      | [] => [[c]]
      | l :: ls => (c :: l) :: ls

/-- The image of a file's lines, in file order; `none` is a load error (rules R85, R86). -/
def imageOfLines (ls : List (List Char)) : Option (List Byte) :=
  match ls with
  | [] => some []
  | l :: ls =>
    match parseLine l with
    | .ignored => imageOfLines ls
    | .byte b => (imageOfLines ls).map (b :: ·)
    | .malformed => none

/-- A launch from a program file's text; from a malformed one it has no meaning (rules R86, R163; item I6). -/
def launchFile (text : List Char) : Out :=
  match imageOfLines (textLines text) with
  | some image => launch image
  | none => .refused .malformedProgramFile

end Sys2Proof.Machine
end

