-- ==== Sys2Proof/Safety.lean ====
section
/-! DEFINITION. The terms statements use: what an operand byte names, frames, which operands an instruction uses, and the
invariant of a run. -/

namespace Sys2Proof.Machine

/-- The next state, where there is one. -/
def nextOf : Out → Option State
  | .next t => some t
  | .fault _ => none
  | .refused _ => none

/-- Operand byte `b` names register `i` (rule R67). -/
abbrev NamesReg (b : Byte) (i : Fin 8) : Prop := b.toNat = i.val

/-- No register differs but those listed. -/
def RegsKeptBut (l : List (Fin 8)) (s t : State) : Prop := ∀ k : Fin 8, k ∉ l → t.reg k = s.reg k

/-- Every byte of memory reads as before. -/
def MemKept (s t : State) : Prop := ∀ a : Byte, t.memRead a = s.memRead a

/-- Every byte of memory but the one at `d` reads as before. -/
def MemKeptBut (d : Byte) (s t : State) : Prop := ∀ a : Byte, a ≠ d → t.memRead a = s.memRead a

/-- The run state and the fault record are as before. -/
def ControlKept (s t : State) : Prop := t.run = s.run ∧ t.fault = s.fault

/-- The state rule R150 leaves: run and the fault record written, nothing else changed. -/
def faultedState (s : State) (cause : FaultCause) (ic info : Byte) : State :=
  { s with run := .faulted, fault := { cause := cause.code, pc := s.pc, ic := ic, info := info } }

/-- JEQ with E clear and JNE with E set fall through (rules R129, R130); no other instruction does. -/
def fallsThrough (i : Instr) (s : State) : Bool :=
  match i with
  | .jeq _ => !s.flE
  | .jne _ => s.flE
  | .prn _ => false
  | .ldi _ _ => false
  | .mul _ _ => false
  | .add _ _ => false
  | .cmp _ _ => false
  | .push _ => false
  | .pop _ => false
  | .call _ => false
  | .ret => false
  | .jmp _ => false
  | .hlt => false

/-- The register-index operands an instruction uses in a state, A before B: all it has, but a branch that falls through
uses none (rule R77). -/
def usedOperands (i : Instr) (s : State) : List Byte := if fallsThrough i s then [] else i.regOperands

/-- The first operand in use that names no register: the one rule R152 (3) faults on. -/
def firstBadOperand (i : Instr) (s : State) : Option Byte := (usedOperands i s).find? fun b => !validIndex b

/-- The fl values of rule R33. -/
abbrev FlLegal (fl : Byte) : Prop := fl = 0x00 ∨ fl = 0x01 ∨ fl = 0x02 ∨ fl = 0x04

/-- The fault record tells of the fault that ended the run (rules R37, R145, R150): the pc is still the faulting
instruction's, the opcode byte is still there, and the cause agrees with it. -/
abbrev RecordTrue (s : State) : Prop :=
  s.fault.pc = s.pc ∧ s.fault.ic = s.memRead s.pc ∧
  ((s.fault.cause = FaultCause.decodeFault.code ∧ s.fault.info = 0 ∧ dispatch s.fault.ic = none) ∨
   (s.fault.cause = FaultCause.registerIndexFault.code ∧ 8 ≤ s.fault.info.toNat ∧ (dispatch s.fault.ic).isSome))

/-- What holds at reset, after every load and after every step: memory in its canonical form, fl one of rule R33's
values, the fault record zero unless FAULTED and true when FAULTED, and pc at a HLT byte when HALTED (rule R131). -/
abbrev State.Inv (s : State) : Prop :=
  s.mem.wf ∧ FlLegal s.fl ∧
  (s.run ≠ .faulted → s.fault = FaultRecord.zero) ∧
  (s.run = .faulted → RecordTrue s) ∧
  (s.run = .halted → s.memRead s.pc = 0x01)

end Sys2Proof.Machine
end

