-- ==== Sys2Proof/Certificates/Slice0/Obligations.lean ====
section
/-! DEFINITION. The statements for the provers. Each docstring names the rule or section of spec/ it formalises. Of the
statements about one instruction, each covers every operand byte: the eight that name a register, and the 248 that do
not. What the rules say of a bad operand (D6), of wrapping (D4, D5), of the order of effects (D3), of pc after HLT (D11), of
CMP's byte and order (D12, D13) and of the order of checks (D20) the spec's own decisions of 92_eei_decisions.md put there;
the statements follow the rules. -/

open Sys2Proof Sys2Proof.Machine

/-! ## The instructions, one rule each: encoding, effect with frame, and the faults -/

/-- Rule R90. -/
def Obligations.PrnEmitsRegister : Prop :=
  ∀ (s : State) (a : Byte),
    encode (.prn a) = [0x47, a] ∧
    (∀ i, NamesReg a i → ∃ t, exec (.prn a) s = .next t ∧
      t.output = s.output ++ [s.reg i] ∧ t.pc.toNat = (s.pc.toNat + 2) % 256 ∧
      RegsKeptBut [] s t ∧ t.fl = s.fl ∧ MemKept s t ∧ ControlKept s t) ∧
    (8 ≤ a.toNat → exec (.prn a) s = .next (faultedState s .registerIndexFault 0x47 a))

/-- Rule R91. -/
def Obligations.LdiWritesImmediate : Prop :=
  ∀ (s : State) (a imm : Byte),
    encode (.ldi a imm) = [0x82, a, imm] ∧
    (∀ i, NamesReg a i → ∃ t, exec (.ldi a imm) s = .next t ∧
      t.reg i = imm ∧ t.pc.toNat = (s.pc.toNat + 3) % 256 ∧
      RegsKeptBut [i] s t ∧ t.fl = s.fl ∧ MemKept s t ∧ ControlKept s t ∧ t.output = s.output) ∧
    (8 ≤ a.toNat → exec (.ldi a imm) s = .next (faultedState s .registerIndexFault 0x82 a))

/-- Rule R104. -/
def Obligations.MulWritesProductModulo256 : Prop :=
  ∀ (s : State) (a b : Byte),
    encode (.mul a b) = [0xA2, a, b] ∧
    (∀ i j, NamesReg a i → NamesReg b j → ∃ t, exec (.mul a b) s = .next t ∧
      (t.reg i).toNat = ((s.reg i).toNat * (s.reg j).toNat) % 256 ∧ t.pc.toNat = (s.pc.toNat + 3) % 256 ∧
      RegsKeptBut [i] s t ∧ t.fl = s.fl ∧ MemKept s t ∧ ControlKept s t ∧ t.output = s.output) ∧
    (8 ≤ a.toNat → exec (.mul a b) s = .next (faultedState s .registerIndexFault 0xA2 a)) ∧
    (a.toNat < 8 → 8 ≤ b.toNat → exec (.mul a b) s = .next (faultedState s .registerIndexFault 0xA2 b))

/-- Rule R105. -/
def Obligations.AddWritesSumModulo256 : Prop :=
  ∀ (s : State) (a b : Byte),
    encode (.add a b) = [0xA0, a, b] ∧
    (∀ i j, NamesReg a i → NamesReg b j → ∃ t, exec (.add a b) s = .next t ∧
      (t.reg i).toNat = ((s.reg i).toNat + (s.reg j).toNat) % 256 ∧ t.pc.toNat = (s.pc.toNat + 3) % 256 ∧
      RegsKeptBut [i] s t ∧ t.fl = s.fl ∧ MemKept s t ∧ ControlKept s t ∧ t.output = s.output) ∧
    (8 ≤ a.toNat → exec (.add a b) s = .next (faultedState s .registerIndexFault 0xA0 a)) ∧
    (a.toNat < 8 → 8 ≤ b.toNat → exec (.add a b) s = .next (faultedState s .registerIndexFault 0xA0 b))

/-- Rule R106: all 8 bits of fl are written, from the unsigned order of the two registers. -/
def Obligations.CmpWritesExactlyOneFlag : Prop :=
  ∀ (s : State) (a b : Byte),
    encode (.cmp a b) = [0xA7, a, b] ∧
    (∀ i j, NamesReg a i → NamesReg b j → ∃ t, exec (.cmp a b) s = .next t ∧
      ((s.reg i).toNat = (s.reg j).toNat → t.fl = 0x01) ∧
      ((s.reg i).toNat < (s.reg j).toNat → t.fl = 0x04) ∧
      ((s.reg j).toNat < (s.reg i).toNat → t.fl = 0x02) ∧
      t.pc.toNat = (s.pc.toNat + 3) % 256 ∧
      RegsKeptBut [] s t ∧ MemKept s t ∧ ControlKept s t ∧ t.output = s.output) ∧
    (8 ≤ a.toNat → exec (.cmp a b) s = .next (faultedState s .registerIndexFault 0xA7 a)) ∧
    (a.toNat < 8 → 8 ≤ b.toNat → exec (.cmp a b) s = .next (faultedState s .registerIndexFault 0xA7 b))

/-- Rule R116: the store goes to the decremented SP, and PUSH R7 stores the decremented SP. -/
def Obligations.PushStoresBelowStackPointer : Prop :=
  ∀ (s : State) (a : Byte),
    encode (.push a) = [0x45, a] ∧
    (∀ i, NamesReg a i → ∃ t, exec (.push a) s = .next t ∧
      t.sp.toNat = (s.sp.toNat + 255) % 256 ∧
      t.memRead s.spDec.sp = (if i = 7 then s.spDec.sp else s.reg i) ∧ MemKeptBut s.spDec.sp s t ∧
      t.pc.toNat = (s.pc.toNat + 2) % 256 ∧
      RegsKeptBut [7] s t ∧ t.fl = s.fl ∧ ControlKept s t ∧ t.output = s.output) ∧
    (8 ≤ a.toNat → exec (.push a) s = .next (faultedState s .registerIndexFault 0x45 a))

/-- Rule R117: POP R7 leaves the popped byte plus 1 in SP. -/
def Obligations.PopLoadsFromStackPointer : Prop :=
  ∀ (s : State) (a : Byte),
    encode (.pop a) = [0x46, a] ∧
    (∀ i, NamesReg a i → ∃ t, exec (.pop a) s = .next t ∧
      (i ≠ 7 → t.reg i = s.memRead s.sp ∧ t.sp.toNat = (s.sp.toNat + 1) % 256) ∧
      (i = 7 → t.sp.toNat = ((s.memRead s.sp).toNat + 1) % 256) ∧
      t.pc.toNat = (s.pc.toNat + 2) % 256 ∧
      RegsKeptBut [i, 7] s t ∧ t.fl = s.fl ∧ MemKept s t ∧ ControlKept s t ∧ t.output = s.output) ∧
    (8 ≤ a.toNat → exec (.pop a) s = .next (faultedState s .registerIndexFault 0x46 a))

/-- Rule R126: the target of CALL R7 is the decremented SP. -/
def Obligations.CallPushesReturnAddressAndJumps : Prop :=
  ∀ (s : State) (a : Byte),
    encode (.call a) = [0x50, a] ∧
    (∀ i, NamesReg a i → ∃ t, exec (.call a) s = .next t ∧
      t.sp.toNat = (s.sp.toNat + 255) % 256 ∧
      (t.memRead s.spDec.sp).toNat = (s.pc.toNat + 2) % 256 ∧ MemKeptBut s.spDec.sp s t ∧
      t.pc = (if i = 7 then s.spDec.sp else s.reg i) ∧
      RegsKeptBut [7] s t ∧ t.fl = s.fl ∧ ControlKept s t ∧ t.output = s.output) ∧
    (8 ≤ a.toNat → exec (.call a) s = .next (faultedState s .registerIndexFault 0x50 a))

/-- Rule R127. -/
def Obligations.RetPopsProgramCounter : Prop :=
  ∀ s : State,
    encode .ret = [0x11] ∧
    ∃ t, exec .ret s = .next t ∧
      t.pc = s.memRead s.sp ∧ t.sp.toNat = (s.sp.toNat + 1) % 256 ∧
      RegsKeptBut [7] s t ∧ t.fl = s.fl ∧ MemKept s t ∧ ControlKept s t ∧ t.output = s.output

/-- Rule R128. -/
def Obligations.JmpTakesRegister : Prop :=
  ∀ (s : State) (a : Byte),
    encode (.jmp a) = [0x54, a] ∧
    (∀ i, NamesReg a i → exec (.jmp a) s = .next { s with pc := s.reg i }) ∧
    (8 ≤ a.toNat → exec (.jmp a) s = .next (faultedState s .registerIndexFault 0x54 a))

/-- Rule R129: with E clear A is not examined, whatever its value. -/
def Obligations.JeqTakesRegisterIfEqual : Prop :=
  ∀ (s : State) (a : Byte),
    encode (.jeq a) = [0x55, a] ∧
    (s.fl.getLsbD 0 = true → ∀ i, NamesReg a i → exec (.jeq a) s = .next { s with pc := s.reg i }) ∧
    (s.fl.getLsbD 0 = true → 8 ≤ a.toNat → exec (.jeq a) s = .next (faultedState s .registerIndexFault 0x55 a)) ∧
    (s.fl.getLsbD 0 = false → ∃ t, exec (.jeq a) s = .next t ∧
      t.pc.toNat = (s.pc.toNat + 2) % 256 ∧ { t with pc := s.pc } = s)

/-- Rule R130: with E set A is not examined, whatever its value. -/
def Obligations.JneTakesRegisterIfNotEqual : Prop :=
  ∀ (s : State) (a : Byte),
    encode (.jne a) = [0x56, a] ∧
    (s.fl.getLsbD 0 = false → ∀ i, NamesReg a i → exec (.jne a) s = .next { s with pc := s.reg i }) ∧
    (s.fl.getLsbD 0 = false → 8 ≤ a.toNat → exec (.jne a) s = .next (faultedState s .registerIndexFault 0x56 a)) ∧
    (s.fl.getLsbD 0 = true → ∃ t, exec (.jne a) s = .next t ∧
      t.pc.toNat = (s.pc.toNat + 2) % 256 ∧ { t with pc := s.pc } = s)

/-- Rule R131: run alone changes, from the step too, and no step follows. (That a step asked for after HLT is answered by
a fault is the model's choice, log entry 1; this statement says only that it answers no next state.) -/
def Obligations.HltEndsTheRun : Prop :=
  encode .hlt = [0x01] ∧
  (∀ s : State, exec .hlt s = .next { s with run := .halted }) ∧
  (∀ s : State, s.run = .running → s.memRead s.pc = 0x01 →
    step s = .next { s with run := .halted } ∧ ∀ t, step { s with run := .halted } ≠ .next t)

/-! ## Encoding -/

/-- 30_encoding.md sections 1 and 5 (rules R65, R66, R68, R83): the decoder reads an instruction and what follows exactly
where its bytes stand, for every operand byte. -/
def Obligations.DecodeInvertsEncode : Prop :=
  ∀ (bytes rest : List Byte) (i : Instr), decode bytes = .instr i rest ↔ bytes = encode i ++ rest

/-- Rule R74: the opcode map, in decimal, with format and length; dispatch finds each opcode and nothing else. -/
def Obligations.DispatchIsTheOpcodeMap : Prop :=
  handlers.map (fun h => (h.opcode.toNat, h.format, h.len)) =
    [(71, .r, 2), (130, .ri, 3), (162, .rr, 3), (160, .rr, 3), (167, .rr, 3), (69, .r, 2), (70, .r, 2), (80, .r, 2),
     (17, .n, 1), (84, .r, 2), (85, .r, 2), (86, .r, 2), (1, .n, 1)] ∧
  ∀ (ic : Byte) (h : Handler), dispatch ic = some h ↔ h.opcode = ic

/-- Rule R75: 243 of the 256 byte values, 0x00 among them, are no opcode, and a step on one raises DecodeFault. -/
def Obligations.UndefinedOpcodeFaults : Prop :=
  ((List.range 256).filter fun n => (dispatch (BitVec.ofNat 8 n)).isNone).length = 243 ∧
  dispatch 0x00 = none ∧
  ∀ s : State, s.run = .running → dispatch (s.memRead s.pc) = none →
    step s = .next (faultedState s .decodeFault (s.memRead s.pc) 0)

/-- 30_encoding.md section 5 and 95_test_vectors.md: words written out from the spec's encodings. -/
def Obligations.WrittenOutWordsDecode : Prop :=
  decode [0b01000111, 0b00000101] = .instr (.prn 5) [] ∧
  decode [0b10000010, 0b00000000, 0b00110111] = .instr (.ldi 0 55) [] ∧
  decode [0b10100010, 0b00000000, 0b00000001] = .instr (.mul 0 1) [] ∧
  decode [0b01000110, 0b00000010, 0b01000111] = .instr (.pop 2) [0x47] ∧
  decode [0b01010000, 0b00000001] = .instr (.call 1) [] ∧
  decode [0b00010001, 0b00000001] = .instr .ret [0x01] ∧
  decode [0b00000001] = .instr .hlt []

/-- 30_encoding.md section 1: the pattern the spec derives from the 13 opcode values (rule R69, which the spec marks as its
own inference). -/
def Obligations.OpcodeBitsFollowThePattern : Prop :=
  ∀ h : Handler,
    (h.opcode >>> 6).toNat + 1 = h.len ∧
    (h.opcode.getLsbD 5 = h.aluOp.isSome) ∧
    (h.opcode.getLsbD 4 = true ↔ h = .call ∨ h = .ret ∨ h = .jmp ∨ h = .jeq ∨ h = .jne)

/-- 30_encoding.md section 3 and 20_memory.md section 4 (rules R63, R76): bytes of the fetch window beyond the length are
not examined. -/
def Obligations.BytesPastLengthAreIgnored : Prop :=
  ∀ (ic a b a' b' : Byte) (h : Handler), dispatch ic = some h →
    (h.len ≤ 2 → (decode [ic, a, b]).instr? = (decode [ic, a, b']).instr?) ∧
    (h.len = 1 → (decode [ic, a, b]).instr? = (decode [ic, a', b']).instr?)

/-! ## The step -/

/-- Rule R72: HLT first, then DecodeFault, then the instruction decoded from IC, A and B; and only while RUNNING. The
per-instruction statements reach a run through this one. -/
def Obligations.StepFollowsTheRunLoop : Prop :=
  ∀ s : State,
    (s.run = .running → s.memRead s.pc = 0x01 → step s = .next { s with run := .halted }) ∧
    (s.run = .running → dispatch (s.memRead s.pc) = none →
      step s = .next (faultedState s .decodeFault (s.memRead s.pc) 0)) ∧
    (∀ (i : Instr) (rest : List Byte), s.run = .running →
      decode [s.memRead s.pc, s.memRead (s.pc + 1), s.memRead (s.pc + 2)] = .instr i rest → step s = exec i s) ∧
    (s.run ≠ .running → ∀ t, step s ≠ .next t)

/-- 30_encoding.md sections 1, 2 and 5 with 20_memory.md section 1 (rules R29, R50, R65, R83): the encoded bytes of any
instruction, stored at pc (and past 0xFF at 0x00), are what the next step runs. -/
def Obligations.StoredInstructionIsTheOneRun : Prop :=
  ∀ (s : State) (i : Instr), s.run = .running →
    step (s.storeBytes s.pc (encode i)) = exec i (s.storeBytes s.pc (encode i))

/-- 30_encoding.md section 2 (rules R71, R72): the host's two ways to give an instruction word agree: what decoding the
word answers is what the next step runs. `withFetchWord` is the model's own aid (log entry 3). -/
def Obligations.FetchWordIsTheOneRun : Prop :=
  ∀ (s : State) (nbits w : Nat) (i : Instr), decodeTableWord nbits w = some i →
    step (s.withFetchWord nbits w) = exec i (s.withFetchWord nbits w)

/-- 60_exceptions.md section 1 and 70_reset_and_hazards.md section 4 (rules R149, R182): while RUNNING, a step always
answers a next state. -/
def Obligations.RunningStepAlwaysCompletes : Prop :=
  ∀ s : State, s.run = .running → ∃ t, step s = .next t

/-- 10_state.md section 6 (rules R35, R36): the transitions of run. -/
def Obligations.RunStateTransitions : Prop :=
  (∀ s t : State, step s = .next t →
    s.run = .running ∧
    (t.run = .halted ↔ s.memRead s.pc = 0x01) ∧
    (t.run = .faulted ↔ dispatch (s.memRead s.pc) = none ∨
      ∃ i b, s.fetched = some i ∧ firstBadOperand i s = some b)) ∧
  (∀ s : State, s.run ≠ .running → ∀ t, step s ≠ .next t)

/-! ## Faults -/

/-- Rule R145: when each fault is raised, with its cause and info; no other condition faults, and AluOpFault is never
raised. (The cause codes are decision D8; the statement names the causes.) -/
def Obligations.FaultsAreThoseOfTheTable : Prop :=
  ∀ s t : State, step s = .next t →
    (t.run = .faulted ↔ dispatch (s.memRead s.pc) = none ∨
      ∃ i b, s.fetched = some i ∧ firstBadOperand i s = some b) ∧
    (dispatch (s.memRead s.pc) = none →
      t.fault.cause = FaultCause.decodeFault.code ∧ t.fault.info = 0) ∧
    (∀ i b, s.fetched = some i → firstBadOperand i s = some b →
      t.fault.cause = FaultCause.registerIndexFault.code ∧ t.fault.info = b ∧ 8 ≤ b.toNat) ∧
    (t.run = .faulted → t.fault.cause ≠ FaultCause.aluOpFault.code)

/-- Rule R150: a fault writes run and the fault record, with the pc and the opcode byte of the faulting instruction, and
nothing else. -/
def Obligations.FaultIsPrecise : Prop :=
  ∀ s t : State, step s = .next t → t.run = .faulted →
    ∃ cause info, t = faultedState s cause (s.memRead s.pc) info

/-- Rule R152: HLT, then DecodeFault, then the first bad operand, A before B, then the instruction without a fault. -/
def Obligations.ChecksHappenInOrder : Prop :=
  ∀ s : State, s.run = .running →
    (s.memRead s.pc = 0x01 → step s = .next { s with run := .halted }) ∧
    (dispatch (s.memRead s.pc) = none → step s = .next (faultedState s .decodeFault (s.memRead s.pc) 0)) ∧
    (∀ i b, s.fetched = some i → firstBadOperand i s = some b →
      step s = .next (faultedState s .registerIndexFault (s.memRead s.pc) b)) ∧
    (∀ i, s.fetched = some i → firstBadOperand i s = none →
      ∃ t, step s = .next t ∧ exec i s = .next t ∧ t.fault = s.fault ∧ t.run = (if i = .hlt then .halted else .running))

/-- Rule R101: what alu_byte drives for each tag, and that the tag 11 raises AluOpFault. -/
def Obligations.AluByteComputes : Prop :=
  (∀ a b : Byte,
    (∃ v, aluByte 0b00 a b = some (.res v) ∧ v.toNat = (a.toNat + b.toNat) % 256) ∧
    (∃ v, aluByte 0b01 a b = some (.res v) ∧ v.toNat = (a.toNat * b.toNat) % 256) ∧
    (∃ v, aluByte 0b10 a b = some (.flags v) ∧ (a = b → v = 0x01) ∧ (a.toNat < b.toNat → v = 0x04) ∧
      (b.toNat < a.toNat → v = 0x02))) ∧
  (∀ (s : State) (h : Handler) (a b : Byte) (i j : Fin 8), NamesReg a i → NamesReg b j →
    aluRR 0b11 h a b s = .next (faultedState s .aluOpFault h.opcode 0))

/-- Rule R103: the decoder issues no tag 11, so no step records AluOpFault; were the tag 11 given, it would. -/
def Obligations.AluOpFaultIsUnreachable : Prop :=
  (∀ h : Handler, h.aluOp ≠ some 0b11) ∧
  (∀ s t : State, step s = .next t → t.run = .faulted → t.fault.cause ≠ FaultCause.aluOpFault.code) ∧
  (∀ (s : State) (h : Handler) (a b : Byte) (i j : Fin 8), NamesReg a i → NamesReg b j →
    aluRR 0b11 h a b s = .next (faultedState s .aluOpFault h.opcode 0))

/-! ## Rules about the whole machine: who writes what, who reads what -/

/-- Rule R32: only a CMP step writes fl, whatever fl was before; only JEQ and JNE read it, and of it only bit 0. -/
def Obligations.FlagsAreWrittenByCmpAndReadByBranches : Prop :=
  (∀ s t : State, step s = .next t → s.memRead s.pc ≠ 0xA7 → t.fl = s.fl) ∧
  (∀ (s t : State) (f : Byte), step s = .next t → s.memRead s.pc ≠ 0xA7 →
    (s.memRead s.pc = 0x55 ∨ s.memRead s.pc = 0x56 → f.getLsbD 0 = s.fl.getLsbD 0) →
    step { s with fl := f } = .next { t with fl := f }) ∧
  (∀ (s t : State) (f : Byte), step s = .next t → s.memRead s.pc = 0xA7 → t.run ≠ .faulted →
    step { s with fl := f } = .next t)

/-- Rule R39: empty at reset; only a PRN step appends, one byte; no instruction reads it. -/
def Obligations.OutputGrowsByPrnOnly : Prop :=
  State.reset.output = [] ∧
  (∀ s t : State, step s = .next t →
    t.output = s.output ∨
    (s.memRead s.pc = 0x47 ∧ ∃ i, NamesReg (s.memRead (s.pc + 1)) i ∧ t.output = s.output ++ [s.reg i])) ∧
  (∀ (s t : State) (o : List Byte), step s = .next t →
    ∃ t', step { s with output := o } = .next t' ∧ { t' with output := [] } = { t with output := [] })

/-- 20_memory.md section 1 and 90_conflicts.md C1: only PUSH and CALL write memory, at the decremented SP. (Rule R48's table,
which the spec marks as derived from the instruction rules.) -/
def Obligations.OnlyPushAndCallWriteMemory : Prop :=
  ∀ s t : State, step s = .next t → ∀ x : Byte, t.memRead x ≠ s.memRead x →
    (s.memRead s.pc = 0x45 ∨ s.memRead s.pc = 0x50) ∧ x = s.spDec.sp

/-- 10_state.md section 1 (rule R21's table, which the spec marks as derived): the registers a step may write. -/
def Obligations.RegistersWrittenByEachOpcode : Prop :=
  ∀ s t : State, step s = .next t → ∀ k : Fin 8, t.reg k ≠ s.reg k →
    (s.memRead s.pc ∈ [0x82#8, 0xA2#8, 0xA0#8, 0x46#8] ∧ NamesReg (s.memRead (s.pc + 1)) k) ∨
    (s.memRead s.pc ∈ [0x45#8, 0x46#8, 0x50#8, 0x11#8] ∧ k = 7)

/-- 10_state.md section 4 (rule R28's table, which the spec marks as derived): the new pc by opcode byte. -/
def Obligations.NewProgramCounterByOpcode : Prop :=
  ∀ s t : State, step s = .next t →
    (t.run ≠ .running → t.pc = s.pc) ∧
    (t.run = .running →
      (s.memRead s.pc ∈ [0x47#8, 0x45#8, 0x46#8] → t.pc = s.pc + 2) ∧
      (s.memRead s.pc ∈ [0x82#8, 0xA2#8, 0xA0#8, 0xA7#8] → t.pc = s.pc + 3) ∧
      (s.memRead s.pc = 0x50 → ∃ i, NamesReg (s.memRead (s.pc + 1)) i ∧ t.pc = s.spDec.reg i) ∧
      (s.memRead s.pc = 0x11 → t.pc = s.memRead s.sp) ∧
      (s.memRead s.pc = 0x54 → ∃ i, NamesReg (s.memRead (s.pc + 1)) i ∧ t.pc = s.reg i) ∧
      (s.memRead s.pc = 0x55 → s.fl.getLsbD 0 = true → ∃ i, NamesReg (s.memRead (s.pc + 1)) i ∧ t.pc = s.reg i) ∧
      (s.memRead s.pc = 0x55 → s.fl.getLsbD 0 = false → t.pc = s.pc + 2) ∧
      (s.memRead s.pc = 0x56 → s.fl.getLsbD 0 = false → ∃ i, NamesReg (s.memRead (s.pc + 1)) i ∧ t.pc = s.reg i) ∧
      (s.memRead s.pc = 0x56 → s.fl.getLsbD 0 = true → t.pc = s.pc + 2))

/-- Rule R24: SPdec and SPinc wrap modulo 256 and touch x[7] alone; nothing is detected at the wrap points. -/
def Obligations.StackPointerWraps : Prop :=
  ∀ s : State,
    s.spDec.sp.toNat = (s.sp.toNat + 255) % 256 ∧ s.spInc.sp.toNat = (s.sp.toNat + 1) % 256 ∧
    s.spDec.sp = s.spDec.reg 7 ∧ s.spInc.sp = s.spInc.reg 7 ∧
    RegsKeptBut [7] s s.spDec ∧ RegsKeptBut [7] s s.spInc ∧ ControlKept s s.spDec ∧ ControlKept s s.spInc

/-! ## Instructions in sequence -/

/-- 42_stack.md (rule R118, which the spec marks as derived): PUSH then POP of one register restores every register, for R7
too; and PUSH Ra, POP Rb copies x[a] to x[b]. The copy is stated for a and b other than 7, where rules R116 and R117
give it (log entry 6). -/
def Obligations.PushThenPopRoundTrips : Prop :=
  ∀ (s : State) (a : Byte) (i : Fin 8), NamesReg a i →
    ∃ t, exec (.push a) s = .next t ∧
      (∃ u, exec (.pop a) t = .next u ∧ RegsKeptBut [] s u ∧ u.fl = s.fl ∧ ControlKept s u) ∧
      (∀ (b : Byte) (j : Fin 8), NamesReg b j → i ≠ 7 → j ≠ 7 →
        ∃ v, exec (.pop b) t = .next v ∧ v.reg j = s.reg i ∧ v.sp = s.sp ∧ RegsKeptBut [j] s v)

/-- 43_control.md (rule R132, which the spec marks as derived): RET with SP and the pushed byte as CALL left them returns to
the instruction after the CALL with SP restored, whatever else happened in between. -/
def Obligations.RetResumesAfterCall : Prop :=
  ∀ (s : State) (a : Byte) (i : Fin 8), NamesReg a i →
    ∃ t, exec (.call a) s = .next t ∧
      ∀ u : State, u.sp = t.sp → u.memRead t.sp = t.memRead t.sp →
        ∃ v, exec .ret u = .next v ∧ v.pc.toNat = (s.pc.toNat + 2) % 256 ∧ v.sp = s.sp ∧
          RegsKeptBut [7] u v ∧ MemKept u v

/-- 20_memory.md section 4 (rule R61, which the spec marks as derived): a PUSH onto the next instruction's address is what
the next step fetches; pushing 0x01 there halts. -/
def Obligations.PushedByteIsFetchedNext : Prop :=
  ∀ (s : State) (i : Fin 8), s.run = .running → s.memRead s.pc = 0x45 → NamesReg (s.memRead (s.pc + 1)) i → i ≠ 7 →
    s.spDec.sp = s.pc + 2 →
    ∃ t, step s = .next t ∧ t.run = .running ∧ t.pc = s.pc + 2 ∧ t.memRead t.pc = s.reg i ∧
      (s.reg i = 0x01 → step t = .next { t with run := .halted }) ∧
      (dispatch (s.reg i) = none → step t = .next (faultedState t .decodeFault (s.reg i) 0))

/-- 70_reset_and_hazards.md section 3 (rules R177, R179): a run of n steps passes through RUNNING states alone before its
last, and the number of steps to the end of a run is unique. -/
def Obligations.RunEndsAfterAUniqueNumberOfSteps : Prop :=
  (∀ (n : Nat) (s t : State), core.run n s = .next t →
    ∀ k, k < n → ∃ u : State, core.run k s = .next u ∧ u.run = .running) ∧
  (∀ (n m : Nat) (s t u : State), core.run n s = .next t → core.run m s = .next u →
    t.run ≠ .running → u.run ≠ .running → n = m ∧ t = u)

/-- 70_reset_and_hazards.md section 3 and 43_control.md (rules R128, R178): a JMP to its own address repeats forever. -/
def Obligations.JumpToItselfHangs : Prop :=
  ∀ (s : State) (i : Fin 8), s.run = .running → s.memRead s.pc = 0x54 → NamesReg (s.memRead (s.pc + 1)) i →
    s.reg i = s.pc → ∀ n : Nat, core.run n s = .next s

/-! ## Reset, load, the invariant of a run, and the host's text -/

/-- Rule R42: every piece of state after reset. -/
def Obligations.ResetGivesTheListedValues : Prop :=
  (∀ x : Byte, State.reset.memRead x = 0x00) ∧
  (∀ k : Fin 8, k ≠ 7 → State.reset.reg k = 0x00) ∧ State.reset.reg 7 = 0xF4 ∧
  State.reset.pc = 0x00 ∧ State.reset.fl = 0x00 ∧ State.reset.run = .running ∧
  State.reset.fault = { cause := 0, pc := 0, ic := 0, info := 0 } ∧ State.reset.output = []

/-- 10_state.md sections 5, 6 and 9 (rules R33, R37, R42): the invariant holds at reset. -/
def Obligations.ResetSatisfiesInvariant : Prop := State.reset.Inv

/-- 10_state.md sections 5 and 6, 43_control.md, 60_exceptions.md section 2 (rules R33, R37, R131, R150): from every state
that satisfies the invariant, reached or not, a step gives one that does. -/
def Obligations.StepKeepsInvariant : Prop :=
  ∀ s t : State, s.Inv → step s = .next t → t.Inv

/-- 70_reset_and_hazards.md section 1 (rules R172, R173): so does every launch. -/
def Obligations.LaunchSatisfiesInvariant : Prop :=
  ∀ (image : List Byte) (t : State), launch image = .next t → t.Inv

/-- 70_reset_and_hazards.md section 1 (rule R172): the image from address 0 in file order, 0x00 after it, and only memory
changes. -/
def Obligations.LaunchLoadsImageAtZero : Prop :=
  ∀ image : List Byte, image.length ≤ 256 →
    ∃ t, launch image = .next t ∧ (∀ x : Byte, t.memRead x = (image[x.toNat]?).getD 0x00) ∧
      { t with mem := State.reset.mem } = State.reset

/-- Rule R173: a longer image is refused as a whole, the run does not start; an empty one is accepted, and the first step
raises DecodeFault at pc = 0. -/
def Obligations.OversizedImageIsRefused : Prop :=
  (∀ image : List Byte, 256 < image.length → launch image = .refused .imageTooLarge) ∧
  launch [] = .next State.reset ∧
  step State.reset = .next (faultedState State.reset .decodeFault 0x00 0)

/-- 40_output_load.md (rule R92): each byte is printed as its decimal numeral, the library's, followed by one line ending;
the text is a function of the stream. That the line ending is the character LF is the model's choice (log entry 10, DESIGN
CHOICE, unsafe): the spec says "one newline" and leaves the line-ending bytes to the host (91_not_in_source.md N19). -/
def Obligations.OutputTextIsDecimalLines : Prop :=
  (∀ v : Byte, renderByte v = Nat.toDigits 10 v.toNat ++ ['\n']) ∧
  ∀ (s : State) (v : Byte), (s.emit v).printed = s.printed ++ renderByte v

/-- 30_encoding.md section 6 (rule R86): a significant line is its first eight binary digits, most significant first,
whatever follows them (which the spec marks as derived from "whose first 8 characters are a binary literal"); a line that
starts with neither 0 nor 1 is ignored. It is about one line, already cut, and rests on no choice of the model's. -/
def Obligations.ProgramLineGivesItsByte : Prop :=
  (∀ (b : Byte) (after : List Char),
    parseLine (((List.range 8).map fun k => if b.getMsbD k then '1' else '0') ++ after) = .byte b) ∧
  (∀ (c : Char) (after : List Char), c ≠ '0' → c ≠ '1' → parseLine (c :: after) = .ignored) ∧
  parseLine [] = .ignored
end

