-- ==== Sys2Proof/Laws/Decode.lean ====
section
/-! SUPPORT. The dispatch table and the decoder. -/

namespace Sys2Proof

/-- No two handlers have one opcode: dispatch finds each by its own. -/
@[simp] theorem dispatch_opcode (h : Handler) : dispatch h.opcode = some h := by
  cases h <;> decide

/-- What dispatch finds has the opcode it was asked for. -/
theorem opcode_of_dispatch {ic : Byte} {h : Handler} (e : dispatch ic = some h) : h.opcode = ic := by
  simpa using List.find?_some e

theorem dispatch_eq_some_iff (ic : Byte) (h : Handler) : dispatch ic = some h ↔ h.opcode = ic :=
  ⟨opcode_of_dispatch, fun e => e ▸ dispatch_opcode h⟩

@[simp] theorem decode_nil : decode [] = .truncated := rfl

/-- Decoding starts at the dispatch table. -/
theorem decode_cons (ic : Byte) (bs : List Byte) :
    decode (ic :: bs) = match dispatch ic with | some h => decodeOperands h bs | none => .undefinedOpcode ic := rfl

theorem decode_of_dispatch {ic : Byte} {h : Handler} (e : dispatch ic = some h) (bs : List Byte) :
    decode (ic :: bs) = decodeOperands h bs := by
  rw [decode_cons, e]

theorem decode_of_undefined {ic : Byte} (e : dispatch ic = none) (bs : List Byte) :
    decode (ic :: bs) = .undefinedOpcode ic := by
  rw [decode_cons, e]

@[simp] theorem handler_instr (h : Handler) (a b : Byte) : (h.instr a b).handler = h := by
  cases h <;> rfl

/-- A window of three bytes is never truncated: it decodes to its handler's instruction with A and B. -/
theorem instr?_decode_window (ic a b : Byte) :
    (decode [ic, a, b]).instr? = (dispatch ic).map fun h => h.instr a b := by
  cases e : dispatch ic with
  | none => simp [decode_of_undefined e, Decoded.instr?]
  | some h => rw [decode_of_dispatch e]; cases h <;> rfl

/-- What a window decodes to has the window's opcode byte. -/
theorem opcode_of_decode_window {ic a b : Byte} {i : Instr} (e : (decode [ic, a, b]).instr? = some i) :
    i.handler.opcode = ic := by
  rw [instr?_decode_window] at e
  obtain ⟨h, hd, rfl⟩ := Option.map_eq_some_iff.1 e
  rw [handler_instr, opcode_of_dispatch hd]

end Sys2Proof
end

