-- ==== Sys2Proof/Laws/State.lean ====
section
/-! SUPPORT. One lemma per field of State per update, and the registers and memory bytes an update that does not touch
them leaves as they were: all true by rfl, so that no proof unfolds a record update. -/

namespace Sys2Proof.Machine

/-! ## setReg -/

@[simp] theorem State.setReg_mem (s : State) (i : Fin 8) (v : Byte) : (s.setReg i v).mem = s.mem := rfl
@[simp] theorem State.setReg_regs (s : State) (i : Fin 8) (v : Byte) : (s.setReg i v).regs = s.regs.set i v := rfl
@[simp] theorem State.setReg_pc (s : State) (i : Fin 8) (v : Byte) : (s.setReg i v).pc = s.pc := rfl
@[simp] theorem State.setReg_fl (s : State) (i : Fin 8) (v : Byte) : (s.setReg i v).fl = s.fl := rfl
@[simp] theorem State.setReg_run (s : State) (i : Fin 8) (v : Byte) : (s.setReg i v).run = s.run := rfl
@[simp] theorem State.setReg_fault (s : State) (i : Fin 8) (v : Byte) : (s.setReg i v).fault = s.fault := rfl
@[simp] theorem State.setReg_output (s : State) (i : Fin 8) (v : Byte) : (s.setReg i v).output = s.output := rfl
@[simp] theorem State.setReg_memRead (s : State) (i : Fin 8) (v : Byte) (x : Byte) : (s.setReg i v).memRead x = s.memRead x := rfl

/-! ## spDec -/

@[simp] theorem State.spDec_mem (s : State) : s.spDec.mem = s.mem := rfl
@[simp] theorem State.spDec_regs (s : State) : s.spDec.regs = s.regs.set Config.spIndex (s.sp - 1#8) := rfl
@[simp] theorem State.spDec_pc (s : State) : s.spDec.pc = s.pc := rfl
@[simp] theorem State.spDec_fl (s : State) : s.spDec.fl = s.fl := rfl
@[simp] theorem State.spDec_run (s : State) : s.spDec.run = s.run := rfl
@[simp] theorem State.spDec_fault (s : State) : s.spDec.fault = s.fault := rfl
@[simp] theorem State.spDec_output (s : State) : s.spDec.output = s.output := rfl
@[simp] theorem State.spDec_memRead (s : State) (x : Byte) : s.spDec.memRead x = s.memRead x := rfl

/-! ## spInc -/

@[simp] theorem State.spInc_mem (s : State) : s.spInc.mem = s.mem := rfl
@[simp] theorem State.spInc_regs (s : State) : s.spInc.regs = s.regs.set Config.spIndex (s.sp + 1#8) := rfl
@[simp] theorem State.spInc_pc (s : State) : s.spInc.pc = s.pc := rfl
@[simp] theorem State.spInc_fl (s : State) : s.spInc.fl = s.fl := rfl
@[simp] theorem State.spInc_run (s : State) : s.spInc.run = s.run := rfl
@[simp] theorem State.spInc_fault (s : State) : s.spInc.fault = s.fault := rfl
@[simp] theorem State.spInc_output (s : State) : s.spInc.output = s.output := rfl
@[simp] theorem State.spInc_memRead (s : State) (x : Byte) : s.spInc.memRead x = s.memRead x := rfl

/-! ## memWrite -/

@[simp] theorem State.memWrite_mem (s : State) (a v : Byte) : (s.memWrite a v).mem = s.mem.write a.toNat v := rfl
@[simp] theorem State.memWrite_regs (s : State) (a v : Byte) : (s.memWrite a v).regs = s.regs := rfl
@[simp] theorem State.memWrite_pc (s : State) (a v : Byte) : (s.memWrite a v).pc = s.pc := rfl
@[simp] theorem State.memWrite_fl (s : State) (a v : Byte) : (s.memWrite a v).fl = s.fl := rfl
@[simp] theorem State.memWrite_run (s : State) (a v : Byte) : (s.memWrite a v).run = s.run := rfl
@[simp] theorem State.memWrite_fault (s : State) (a v : Byte) : (s.memWrite a v).fault = s.fault := rfl
@[simp] theorem State.memWrite_output (s : State) (a v : Byte) : (s.memWrite a v).output = s.output := rfl
@[simp] theorem State.memWrite_reg (s : State) (a v : Byte) (k : Fin 8) : (s.memWrite a v).reg k = s.reg k := rfl
@[simp] theorem State.memWrite_sp (s : State) (a v : Byte) : (s.memWrite a v).sp = s.sp := rfl

/-! ## setPc -/

@[simp] theorem State.setPc_mem (s : State) (p : Byte) : (s.setPc p).mem = s.mem := rfl
@[simp] theorem State.setPc_regs (s : State) (p : Byte) : (s.setPc p).regs = s.regs := rfl
@[simp] theorem State.setPc_pc (s : State) (p : Byte) : (s.setPc p).pc = p := rfl
@[simp] theorem State.setPc_fl (s : State) (p : Byte) : (s.setPc p).fl = s.fl := rfl
@[simp] theorem State.setPc_run (s : State) (p : Byte) : (s.setPc p).run = s.run := rfl
@[simp] theorem State.setPc_fault (s : State) (p : Byte) : (s.setPc p).fault = s.fault := rfl
@[simp] theorem State.setPc_output (s : State) (p : Byte) : (s.setPc p).output = s.output := rfl
@[simp] theorem State.setPc_reg (s : State) (p : Byte) (k : Fin 8) : (s.setPc p).reg k = s.reg k := rfl
@[simp] theorem State.setPc_sp (s : State) (p : Byte) : (s.setPc p).sp = s.sp := rfl
@[simp] theorem State.setPc_memRead (s : State) (p : Byte) (x : Byte) : (s.setPc p).memRead x = s.memRead x := rfl

/-! ## advance -/

@[simp] theorem State.advance_mem (s : State) (n : Byte) : (s.advance n).mem = s.mem := rfl
@[simp] theorem State.advance_regs (s : State) (n : Byte) : (s.advance n).regs = s.regs := rfl
@[simp] theorem State.advance_pc (s : State) (n : Byte) : (s.advance n).pc = s.pc + n := rfl
@[simp] theorem State.advance_fl (s : State) (n : Byte) : (s.advance n).fl = s.fl := rfl
@[simp] theorem State.advance_run (s : State) (n : Byte) : (s.advance n).run = s.run := rfl
@[simp] theorem State.advance_fault (s : State) (n : Byte) : (s.advance n).fault = s.fault := rfl
@[simp] theorem State.advance_output (s : State) (n : Byte) : (s.advance n).output = s.output := rfl
@[simp] theorem State.advance_reg (s : State) (n : Byte) (k : Fin 8) : (s.advance n).reg k = s.reg k := rfl
@[simp] theorem State.advance_sp (s : State) (n : Byte) : (s.advance n).sp = s.sp := rfl
@[simp] theorem State.advance_memRead (s : State) (n : Byte) (x : Byte) : (s.advance n).memRead x = s.memRead x := rfl

/-! ## setFl -/

@[simp] theorem State.setFl_mem (s : State) (v : Byte) : (s.setFl v).mem = s.mem := rfl
@[simp] theorem State.setFl_regs (s : State) (v : Byte) : (s.setFl v).regs = s.regs := rfl
@[simp] theorem State.setFl_pc (s : State) (v : Byte) : (s.setFl v).pc = s.pc := rfl
@[simp] theorem State.setFl_fl (s : State) (v : Byte) : (s.setFl v).fl = v := rfl
@[simp] theorem State.setFl_run (s : State) (v : Byte) : (s.setFl v).run = s.run := rfl
@[simp] theorem State.setFl_fault (s : State) (v : Byte) : (s.setFl v).fault = s.fault := rfl
@[simp] theorem State.setFl_output (s : State) (v : Byte) : (s.setFl v).output = s.output := rfl
@[simp] theorem State.setFl_reg (s : State) (v : Byte) (k : Fin 8) : (s.setFl v).reg k = s.reg k := rfl
@[simp] theorem State.setFl_sp (s : State) (v : Byte) : (s.setFl v).sp = s.sp := rfl
@[simp] theorem State.setFl_memRead (s : State) (v : Byte) (x : Byte) : (s.setFl v).memRead x = s.memRead x := rfl

/-! ## emit -/

@[simp] theorem State.emit_mem (s : State) (v : Byte) : (s.emit v).mem = s.mem := rfl
@[simp] theorem State.emit_regs (s : State) (v : Byte) : (s.emit v).regs = s.regs := rfl
@[simp] theorem State.emit_pc (s : State) (v : Byte) : (s.emit v).pc = s.pc := rfl
@[simp] theorem State.emit_fl (s : State) (v : Byte) : (s.emit v).fl = s.fl := rfl
@[simp] theorem State.emit_run (s : State) (v : Byte) : (s.emit v).run = s.run := rfl
@[simp] theorem State.emit_fault (s : State) (v : Byte) : (s.emit v).fault = s.fault := rfl
@[simp] theorem State.emit_output (s : State) (v : Byte) : (s.emit v).output = s.output ++ [v] := rfl
@[simp] theorem State.emit_reg (s : State) (v : Byte) (k : Fin 8) : (s.emit v).reg k = s.reg k := rfl
@[simp] theorem State.emit_sp (s : State) (v : Byte) : (s.emit v).sp = s.sp := rfl
@[simp] theorem State.emit_memRead (s : State) (v : Byte) (x : Byte) : (s.emit v).memRead x = s.memRead x := rfl

/-! ## halt -/

@[simp] theorem State.halt_mem (s : State) : s.halt.mem = s.mem := rfl
@[simp] theorem State.halt_regs (s : State) : s.halt.regs = s.regs := rfl
@[simp] theorem State.halt_pc (s : State) : s.halt.pc = s.pc := rfl
@[simp] theorem State.halt_fl (s : State) : s.halt.fl = s.fl := rfl
@[simp] theorem State.halt_run (s : State) : s.halt.run = .halted := rfl
@[simp] theorem State.halt_fault (s : State) : s.halt.fault = s.fault := rfl
@[simp] theorem State.halt_output (s : State) : s.halt.output = s.output := rfl
@[simp] theorem State.halt_reg (s : State) (k : Fin 8) : s.halt.reg k = s.reg k := rfl
@[simp] theorem State.halt_sp (s : State) : s.halt.sp = s.sp := rfl
@[simp] theorem State.halt_memRead (s : State) (x : Byte) : s.halt.memRead x = s.memRead x := rfl

/-! ## raise -/

@[simp] theorem State.raise_mem (s : State) (c : FaultCause) (ic info : Byte) : (s.raise c ic info).mem = s.mem := rfl
@[simp] theorem State.raise_regs (s : State) (c : FaultCause) (ic info : Byte) : (s.raise c ic info).regs = s.regs := rfl
@[simp] theorem State.raise_pc (s : State) (c : FaultCause) (ic info : Byte) : (s.raise c ic info).pc = s.pc := rfl
@[simp] theorem State.raise_fl (s : State) (c : FaultCause) (ic info : Byte) : (s.raise c ic info).fl = s.fl := rfl
@[simp] theorem State.raise_run (s : State) (c : FaultCause) (ic info : Byte) : (s.raise c ic info).run = .faulted := rfl
@[simp] theorem State.raise_fault (s : State) (c : FaultCause) (ic info : Byte) : (s.raise c ic info).fault = { cause := c.code, pc := s.pc, ic := ic, info := info } := rfl
@[simp] theorem State.raise_output (s : State) (c : FaultCause) (ic info : Byte) : (s.raise c ic info).output = s.output := rfl
@[simp] theorem State.raise_reg (s : State) (c : FaultCause) (ic info : Byte) (k : Fin 8) : (s.raise c ic info).reg k = s.reg k := rfl
@[simp] theorem State.raise_sp (s : State) (c : FaultCause) (ic info : Byte) : (s.raise c ic info).sp = s.sp := rfl
@[simp] theorem State.raise_memRead (s : State) (c : FaultCause) (ic info : Byte) (x : Byte) : (s.raise c ic info).memRead x = s.memRead x := rfl

end Sys2Proof.Machine
end

