-- ==== Sys2Proof/Laws/Memory.lean ====
section
/-! SUPPORT. Memory: a read after a write (of any list, canonical or not), every operation keeps the canonical form, and
canonical memories that read alike are equal. -/

namespace Sys2Proof.Machine

@[simp] theorem Memory.read_nil (a : Nat) : Memory.read [] a = Config.memReset := rfl

theorem Memory.read_cons (c : Host.Cell) (m : Memory) (a : Nat) :
    Memory.read (c :: m) a = if c.1 = a then c.2 else m.read a := rfl

theorem Memory.read_insert_same (m : Memory) (a : Nat) (v : Byte) (h : ∀ c ∈ m, c.1 ≠ a) :
    (m.insert a v).read a = v := by
  induction m with
  | nil => simp [Memory.insert, Memory.read_cons]
  | cons c m ih =>
    have hc : c.1 ≠ a := h c (by simp)
    simp only [Memory.insert]
    split
    · simp [Memory.read_cons]
    · simpa [Memory.read_cons, hc] using ih fun d hd => h d (by simp [hd])

theorem Memory.read_insert_other (m : Memory) (a b : Nat) (v : Byte) (h : b ≠ a) :
    (m.insert a v).read b = m.read b := by
  induction m with
  | nil => simp [Memory.insert, Memory.read_cons, h.symm]
  | cons c m ih =>
    simp only [Memory.insert]
    split
    · simp [Memory.read_cons, h.symm]
    · simp [Memory.read_cons, ih]

theorem Memory.mem_erase {m : Memory} {a : Nat} {c : Host.Cell} (h : c ∈ m.erase a) : c ∈ m ∧ c.1 ≠ a := by
  simpa [Memory.erase] using h

theorem Memory.read_erase_same (m : Memory) (a : Nat) : (m.erase a).read a = Config.memReset := by
  induction m with
  | nil => rfl
  | cons c m ih =>
    by_cases hc : c.1 = a
    · simpa [Memory.erase, List.filter_cons, hc] using ih
    · simpa [Memory.erase, List.filter_cons, hc, Memory.read_cons] using ih

theorem Memory.read_erase_other (m : Memory) (a b : Nat) (h : b ≠ a) : (m.erase a).read b = m.read b := by
  induction m with
  | nil => rfl
  | cons c m ih =>
    by_cases hc : c.1 = a
    · have hb : ¬ a = b := fun e => h e.symm
      simpa [Memory.erase, List.filter_cons, hc, hb, Memory.read_cons] using ih
    · have e : Memory.erase (c :: m) a = c :: Memory.erase m a := by simp [Memory.erase, hc]
      rw [e, Memory.read_cons, Memory.read_cons, ih]

/-- The one law of a write: it is seen at its address, and nowhere else. -/
theorem Memory.read_write (m : Memory) (a b : Nat) (v : Byte) :
    (m.write a v).read b = if b = a then v else m.read b := by
  unfold Memory.write
  by_cases hb : b = a
  · subst hb
    split
    · next hv => simp [Memory.read_erase_same, hv]
    · simpa using Memory.read_insert_same _ b v fun c hc => (Memory.mem_erase hc).2
  · rw [if_neg hb]
    split
    · rw [Memory.read_erase_other m a b hb]
    · rw [Memory.read_insert_other _ a b v hb, Memory.read_erase_other m a b hb]

theorem Memory.mem_insert {m : Memory} {a : Nat} {v : Byte} {c : Host.Cell} (h : c ∈ m.insert a v) :
    c = (a, v) ∨ c ∈ m := by
  induction m with
  | nil => exact .inl (by simpa [Memory.insert] using h)
  | cons d m ih =>
    simp only [Memory.insert] at h
    split at h
    · simpa using h
    · obtain h | h := List.mem_cons.1 h
      · exact .inr (by simp [h])
      · exact (ih h).imp id fun h => by simp [h]

theorem Memory.insert_sorted (m : Memory) (a : Nat) (v : Byte) (hm : m.Pairwise fun c d => c.1 < d.1)
    (ha : ∀ c ∈ m, c.1 ≠ a) : (m.insert a v).Pairwise fun c d => c.1 < d.1 := by
  induction m with
  | nil => simp [Memory.insert]
  | cons d m ih =>
    obtain ⟨hd, hm'⟩ := List.pairwise_cons.1 hm
    have hne : d.1 ≠ a := ha d (by simp)
    simp only [Memory.insert]
    split
    · next h =>
      refine List.pairwise_cons.2 ⟨fun c hc => ?_, hm⟩
      obtain rfl | hc := List.mem_cons.1 hc
      · exact h
      · exact lt_trans h (hd c hc)
    · refine List.pairwise_cons.2 ⟨fun c hc => ?_, ih hm' fun c hc => ha c (by simp [hc])⟩
      obtain rfl | hc := Memory.mem_insert hc
      · show d.1 < a
        omega
      · exact hd c hc

theorem Memory.wf_nil : Memory.wf [] := by decide

theorem Memory.wf_erase (m : Memory) (a : Nat) (h : m.wf) : (m.erase a).wf :=
  ⟨h.1.filter _, fun c hc => h.2 c (Memory.mem_erase hc).1⟩

/-- A write keeps the canonical form. -/
theorem Memory.wf_write (m : Memory) (a : Nat) (v : Byte) (ha : a < Config.memSize) (h : m.wf) : (m.write a v).wf := by
  have he := Memory.wf_erase m a h
  unfold Memory.write
  split
  · exact he
  · next hv =>
    refine ⟨Memory.insert_sorted _ a v he.1 fun c hc => (Memory.mem_erase hc).2, fun c hc => ?_⟩
    obtain rfl | hc := Memory.mem_insert hc
    · exact ⟨ha, hv⟩
    · exact he.2 c hc

/-- Below its first entry a sorted memory reads as reset. -/
theorem Memory.read_below (m : Memory) (a : Nat) (h : ∀ c ∈ m, a < c.1) : m.read a = Config.memReset := by
  induction m with
  | nil => rfl
  | cons c m ih =>
    have hc : c.1 ≠ a := Nat.ne_of_gt (h c (by simp))
    simpa [Memory.read_cons, hc] using ih fun d hd => h d (by simp [hd])

/-- Equal contents are equal data. -/
theorem Memory.ext_read (m n : Memory) (hm : m.wf) (hn : n.wf) (h : ∀ a, m.read a = n.read a) : m = n := by
  induction m generalizing n with
  | nil =>
    cases n with
    | nil => rfl
    | cons d n => exact absurd (by simpa [Memory.read_cons] using (h d.1).symm) (hn.2 d (by simp)).2
  | cons c m ih =>
    cases n with
    | nil => exact absurd (by simpa [Memory.read_cons] using h c.1) (hm.2 c (by simp)).2
    | cons d n =>
      obtain ⟨hc, hm'⟩ := List.pairwise_cons.1 hm.1
      obtain ⟨hd, hn'⟩ := List.pairwise_cons.1 hn.1
      have hcd : c.1 = d.1 := by
        rcases lt_trichotomy c.1 d.1 with hlt | heq | hlt
        · refine absurd ?_ (hm.2 c (by simp)).2
          have := h c.1
          rw [Memory.read_below (d :: n) c.1 fun e he => by
            obtain rfl | he := List.mem_cons.1 he
            · exact hlt
            · exact lt_trans hlt (hd e he)] at this
          simpa [Memory.read_cons] using this
        · exact heq
        · refine absurd ?_ (hn.2 d (by simp)).2
          have := h d.1
          rw [Memory.read_below (c :: m) d.1 fun e he => by
            obtain rfl | he := List.mem_cons.1 he
            · exact hlt
            · exact lt_trans hlt (hc e he)] at this
          simpa [Memory.read_cons] using this.symm
      have hv : c.2 = d.2 := by simpa [Memory.read_cons, hcd] using h c.1
      have htail : m = n := by
        refine ih n ⟨hm', fun e he => hm.2 e (by simp [he])⟩ ⟨hn', fun e he => hn.2 e (by simp [he])⟩ fun a => ?_
        by_cases ha : c.1 = a
        · rw [Memory.read_below m a fun e he => ha ▸ hc e he, Memory.read_below n a fun e he => ha ▸ hcd ▸ hd e he]
        · have := h a
          have hda : ¬ d.1 = a := fun e => ha (hcd.trans e)
          simpa [Memory.read_cons, ha, hda] using this
      rw [htail, Prod.ext hcd hv]

/-- MemRead after MemWrite. -/
theorem State.memRead_memWrite (s : State) (a b v : Byte) :
    (s.memWrite a v).memRead b = if b = a then v else s.memRead b := by
  show (s.mem.write a.toNat v).read b.toNat = _
  rw [Memory.read_write]
  by_cases h : b = a
  · simp [h]
  · have : b.toNat ≠ a.toNat := fun e => h (BitVec.eq_of_toNat_eq e)
    simp [h, this, State.memRead]

@[simp] theorem State.memRead_memWrite_same (s : State) (a v : Byte) : (s.memWrite a v).memRead a = v := by
  simp [State.memRead_memWrite]

/-- MemWrite keeps the canonical form: every u8 is an address. -/
theorem State.wf_memWrite (s : State) (a v : Byte) (h : s.mem.wf) : (s.memWrite a v).mem.wf :=
  Memory.wf_write s.mem a.toNat v a.isLt h

theorem reset_wf : State.reset.mem.wf := Memory.wf_nil

end Sys2Proof.Machine
end

