-- ==== Sys2Proof/Laws/Registers.lean ====
section
/-! SUPPORT. The register file and the stack pointer: a read after a write, and what a write leaves alone. -/

namespace Sys2Proof.Machine

@[simp] theorem RegFile.get_set_same (f : RegFile) (i : Fin 8) (v : Byte) : (f.set i v).get i = v := by
  revert i; intro i; fin_cases i <;> rfl

theorem RegFile.get_set_other (f : RegFile) (i k : Fin 8) (v : Byte) (h : k ≠ i) :
    (f.set i v).get k = f.get k := by
  fin_cases i <;> fin_cases k <;> first | rfl | exact absurd rfl h

theorem RegFile.get_set (f : RegFile) (i k : Fin 8) (v : Byte) :
    (f.set i v).get k = if k = i then v else f.get k := by
  split
  · next h => subst h; exact RegFile.get_set_same f _ v
  · next h => exact RegFile.get_set_other f i k v h

/-- Two register files that read alike are equal. -/
theorem RegFile.ext_get (f g : RegFile) (h : ∀ k, f.get k = g.get k) : f = g := by
  cases f; cases g
  have h0 := h 0; have h1 := h 1; have h2 := h 2; have h3 := h 3
  have h4 := h 4; have h5 := h 5; have h6 := h 6; have h7 := h 7
  simp only [RegFile.get] at h0 h1 h2 h3 h4 h5 h6 h7
  subst h0 h1 h2 h3 h4 h5 h6 h7
  rfl

theorem State.reg_setReg (s : State) (i k : Fin 8) (v : Byte) :
    (s.setReg i v).reg k = if k = i then v else s.reg k := RegFile.get_set s.regs i k v

@[simp] theorem State.reg_setReg_same (s : State) (i : Fin 8) (v : Byte) : (s.setReg i v).reg i = v :=
  RegFile.get_set_same s.regs i v

theorem State.sp_eq_reg (s : State) : s.sp = s.reg 7 := rfl

theorem State.sp_setReg (s : State) (i : Fin 8) (v : Byte) :
    (s.setReg i v).sp = if i = 7 then v else s.sp := by
  simp only [State.sp, State.reg_setReg, eq_comm]

theorem State.reg_spDec (s : State) (k : Fin 8) :
    s.spDec.reg k = if k = 7 then s.sp - 1#8 else s.reg k := State.reg_setReg s _ k _

theorem State.reg_spInc (s : State) (k : Fin 8) :
    s.spInc.reg k = if k = 7 then s.sp + 1#8 else s.reg k := State.reg_setReg s _ k _

@[simp] theorem State.sp_spDec (s : State) : s.spDec.sp = s.sp - 1#8 := State.reg_setReg_same s _ _

@[simp] theorem State.sp_spInc (s : State) : s.spInc.sp = s.sp + 1#8 := State.reg_setReg_same s _ _

end Sys2Proof.Machine
end

