-- ==== Sys2Proof/Laws/Ops.lean ====
section
/-! SUPPORT. What each shared operation can do, said once: the operand check, alu_byte and its instructions, the jump, the
fetch and the store of a run of bytes. -/

namespace Sys2Proof.Machine

/-- The fault entry is the state the statements write out. -/
theorem State.raise_eq (s : State) (c : FaultCause) (ic info : Byte) : s.raise c ic info = faultedState s c ic info := rfl

/-! ## The operand check -/

/-- A byte that names a register passes the check. -/
theorem chkReg_of_names (h : Handler) (b : Byte) (s : State) (k : Fin 8 → Out) (i : Fin 8) (hb : NamesReg b i) :
    chkReg h b s k = k i := by
  have hlt : b.toNat < 8 := hb ▸ i.isLt
  have : (⟨b.toNat, hlt⟩ : Fin 8) = i := Fin.ext hb
  simp [chkReg, hlt, this]

/-- A byte of 8 or more faults. -/
theorem chkReg_of_ge (h : Handler) (b : Byte) (s : State) (k : Fin 8 → Out) (hb : 8 ≤ b.toNat) :
    chkReg h b s k = .next (s.raise .registerIndexFault h.opcode b) := by
  have : ¬ b.toNat < 8 := by omega
  simp [chkReg, this]

/-- Every byte does one or the other. -/
theorem chkReg_cases (h : Handler) (b : Byte) (s : State) (k : Fin 8 → Out) :
    (∃ i, NamesReg b i ∧ chkReg h b s k = k i) ∨
    (8 ≤ b.toNat ∧ chkReg h b s k = .next (s.raise .registerIndexFault h.opcode b)) := by
  by_cases hb : b.toNat < 8
  · exact .inl ⟨⟨b.toNat, hb⟩, rfl, chkReg_of_names h b s k _ rfl⟩
  · exact .inr ⟨by omega, chkReg_of_ge h b s k (by omega)⟩

theorem validIndex_of_names {b : Byte} {i : Fin 8} (h : NamesReg b i) : validIndex b = true := by
  have : b.toNat < 8 := h ▸ i.isLt
  simpa [validIndex] using this

theorem not_validIndex_of_ge {b : Byte} (h : 8 ≤ b.toNat) : validIndex b = false := by
  simpa [validIndex] using h

/-! ## alu_byte -/

@[simp] theorem aluByte_add (a b : Byte) : aluByte aluOpAdd a b = some (.res (a + b)) := rfl
@[simp] theorem aluByte_mul (a b : Byte) : aluByte aluOpMul a b = some (.res (a * b)) := rfl
@[simp] theorem aluByte_cmp (a b : Byte) : aluByte aluOpCmp a b = some (.flags (cmpFlags a b)) := rfl

/-- Everything an RR instruction can do. -/
theorem aluRR_cases (op : BitVec 2) (h : Handler) (a b : Byte) (s : State) :
    (∃ i j out, NamesReg a i ∧ NamesReg b j ∧ aluByte op (s.reg i) (s.reg j) = some out ∧
      aluRR op h a b s = .next ((s.applyAlu i out).advance 3)) ∨
    (∃ i j, NamesReg a i ∧ NamesReg b j ∧ aluByte op (s.reg i) (s.reg j) = none ∧
      aluRR op h a b s = .next (s.raise .aluOpFault h.opcode 0#8)) ∨
    (8 ≤ a.toNat ∧ aluRR op h a b s = .next (s.raise .registerIndexFault h.opcode a)) ∨
    (a.toNat < 8 ∧ 8 ≤ b.toNat ∧ aluRR op h a b s = .next (s.raise .registerIndexFault h.opcode b)) := by
  unfold aluRR
  obtain ⟨i, ha, e⟩ | ⟨ha, e⟩ := chkReg_cases h a s _
  · rw [e]
    obtain ⟨j, hb, e⟩ | ⟨hb, e⟩ := chkReg_cases h b s _
    · rw [e]
      cases e : aluByte op (s.reg i) (s.reg j) with
      | some out => exact .inl ⟨i, j, out, ha, hb, e, rfl⟩
      | none => exact .inr (.inl ⟨i, j, ha, hb, e, rfl⟩)
    · exact .inr (.inr (.inr ⟨ha ▸ i.isLt, hb, e⟩))
  · exact .inr (.inr (.inl ⟨ha, e⟩))

/-! ## The jump -/

/-- Everything a jump through a register can do. -/
theorem jumpReg_cases (h : Handler) (a : Byte) (s : State) :
    (∃ i, NamesReg a i ∧ jumpReg h a s = .next (s.setPc (s.reg i))) ∨
    (8 ≤ a.toNat ∧ jumpReg h a s = .next (s.raise .registerIndexFault h.opcode a)) :=
  chkReg_cases h a s _

/-! ## The fetch -/

/-- The instruction a step runs, by the dispatch table. -/
theorem State.fetched_eq (s : State) :
    s.fetched = (dispatch (s.memRead s.pc)).map fun h => h.instr (s.memRead (s.pc + 1#8)) (s.memRead (s.pc + 2#8)) :=
  instr?_decode_window _ _ _

/-- The opcode byte of what is fetched is the byte at pc. -/
theorem State.opcode_of_fetched {s : State} {i : Instr} (h : s.fetched = some i) :
    i.handler.opcode = s.memRead s.pc := opcode_of_decode_window h

theorem State.fetched_eq_none_iff (s : State) : s.fetched = none ↔ dispatch (s.memRead s.pc) = none := by
  rw [State.fetched_eq, Option.map_eq_none_iff]

/-! ## A run of bytes -/

@[simp] theorem State.storeBytes_nil (s : State) (a : Byte) : s.storeBytes a [] = s := rfl

@[simp] theorem State.storeBytes_cons (s : State) (a v : Byte) (vs : List Byte) :
    s.storeBytes a (v :: vs) = (s.memWrite a v).storeBytes (a + 1#8) vs := rfl

/-- Storing bytes changes memory alone. -/
theorem State.storeBytes_eq (s : State) (a : Byte) (vs : List Byte) :
    s.storeBytes a vs = { s with mem := (s.storeBytes a vs).mem } := by
  induction vs generalizing s a with
  | nil => rfl
  | cons v vs ih => rw [State.storeBytes_cons, ih]; rfl

theorem State.wf_storeBytes (s : State) (a : Byte) (vs : List Byte) (h : s.mem.wf) : (s.storeBytes a vs).mem.wf := by
  induction vs generalizing s a with
  | nil => exact h
  | cons v vs ih => exact ih _ _ (State.wf_memWrite s a v h)

end Sys2Proof.Machine
end

