-- ==== Sys2Proof/Laws/Exec.lean ====
section
/-! SUPPORT. One lemma per meaning that says everything it can do; a proof about an instruction cites it instead of
unfolding the meaning. None of them stops: each answers a next state. -/

namespace Sys2Proof.Machine

theorem exec_prn_cases (a : Byte) (s : State) :
    (∃ i, NamesReg a i ∧ exec (.prn a) s = .next ((s.emit (s.reg i)).advance 2#8)) ∨
    (8 ≤ a.toNat ∧ exec (.prn a) s = .next (s.raise .registerIndexFault Handler.prn.opcode a)) :=
  chkReg_cases .prn a s fun i => .next ((s.emit (s.reg i)).advance 2#8)

theorem exec_ldi_cases (a imm : Byte) (s : State) :
    (∃ i, NamesReg a i ∧ exec (.ldi a imm) s = .next ((s.setReg i imm).advance 3#8)) ∨
    (8 ≤ a.toNat ∧ exec (.ldi a imm) s = .next (s.raise .registerIndexFault Handler.ldi.opcode a)) :=
  chkReg_cases .ldi a s fun i => .next ((s.setReg i imm).advance 3#8)

/-- An RR instruction whose tag alu_byte knows: its result, or the first bad operand. -/
theorem aluRR_cases_of_known (op : BitVec 2) (h : Handler) (f : Byte → Byte → AluOut)
    (hf : ∀ x y, aluByte op x y = some (f x y)) (a b : Byte) (s : State) :
    (∃ i j, NamesReg a i ∧ NamesReg b j ∧
      aluRR op h a b s = .next ((s.applyAlu i (f (s.reg i) (s.reg j))).advance 3#8)) ∨
    (8 ≤ a.toNat ∧ aluRR op h a b s = .next (s.raise .registerIndexFault h.opcode a)) ∨
    (a.toNat < 8 ∧ 8 ≤ b.toNat ∧ aluRR op h a b s = .next (s.raise .registerIndexFault h.opcode b)) := by
  obtain ⟨i, j, out, ha, hb, e, r⟩ | ⟨i, j, -, -, e, -⟩ | r | r := aluRR_cases op h a b s
  · rw [hf, Option.some.injEq] at e
    exact .inl ⟨i, j, ha, hb, e ▸ r⟩
  · rw [hf] at e; cases e
  · exact .inr (.inl r)
  · exact .inr (.inr r)

theorem exec_mul_cases (a b : Byte) (s : State) :
    (∃ i j, NamesReg a i ∧ NamesReg b j ∧
      exec (.mul a b) s = .next ((s.setReg i (s.reg i * s.reg j)).advance 3#8)) ∨
    (8 ≤ a.toNat ∧ exec (.mul a b) s = .next (s.raise .registerIndexFault Handler.mul.opcode a)) ∨
    (a.toNat < 8 ∧ 8 ≤ b.toNat ∧ exec (.mul a b) s = .next (s.raise .registerIndexFault Handler.mul.opcode b)) :=
  aluRR_cases_of_known aluOpMul .mul (fun x y => .res (x * y)) aluByte_mul a b s

theorem exec_add_cases (a b : Byte) (s : State) :
    (∃ i j, NamesReg a i ∧ NamesReg b j ∧
      exec (.add a b) s = .next ((s.setReg i (s.reg i + s.reg j)).advance 3#8)) ∨
    (8 ≤ a.toNat ∧ exec (.add a b) s = .next (s.raise .registerIndexFault Handler.add.opcode a)) ∨
    (a.toNat < 8 ∧ 8 ≤ b.toNat ∧ exec (.add a b) s = .next (s.raise .registerIndexFault Handler.add.opcode b)) :=
  aluRR_cases_of_known aluOpAdd .add (fun x y => .res (x + y)) aluByte_add a b s

theorem exec_cmp_cases (a b : Byte) (s : State) :
    (∃ i j, NamesReg a i ∧ NamesReg b j ∧
      exec (.cmp a b) s = .next ((s.setFl (cmpFlags (s.reg i) (s.reg j))).advance 3#8)) ∨
    (8 ≤ a.toNat ∧ exec (.cmp a b) s = .next (s.raise .registerIndexFault Handler.cmp.opcode a)) ∨
    (a.toNat < 8 ∧ 8 ≤ b.toNat ∧ exec (.cmp a b) s = .next (s.raise .registerIndexFault Handler.cmp.opcode b)) :=
  aluRR_cases_of_known aluOpCmp .cmp (fun x y => .flags (cmpFlags x y)) aluByte_cmp a b s

theorem exec_push_cases (a : Byte) (s : State) :
    (∃ i, NamesReg a i ∧ exec (.push a) s = .next ((s.spDec.memWrite (s.sp - 1#8) (s.spDec.reg i)).advance 2#8)) ∨
    (8 ≤ a.toNat ∧ exec (.push a) s = .next (s.raise .registerIndexFault Handler.push.opcode a)) := by
  have h := chkReg_cases .push a s fun i => .next ((s.spDec.memWrite s.spDec.sp (s.spDec.reg i)).advance 2#8)
  rwa [State.sp_spDec] at h

theorem exec_pop_cases (a : Byte) (s : State) :
    (∃ i, NamesReg a i ∧ exec (.pop a) s = .next ((s.setReg i (s.memRead s.sp)).spInc.advance 2#8)) ∨
    (8 ≤ a.toNat ∧ exec (.pop a) s = .next (s.raise .registerIndexFault Handler.pop.opcode a)) :=
  chkReg_cases .pop a s fun i => .next ((s.setReg i (s.memRead s.sp)).spInc.advance 2#8)

theorem exec_call_cases (a : Byte) (s : State) :
    (∃ i, NamesReg a i ∧ exec (.call a) s = .next ((s.spDec.memWrite (s.sp - 1#8) (s.pc + 2#8)).setPc (s.spDec.reg i))) ∨
    (8 ≤ a.toNat ∧ exec (.call a) s = .next (s.raise .registerIndexFault Handler.call.opcode a)) := by
  have h := chkReg_cases .call a s fun i => .next ((s.spDec.memWrite s.spDec.sp (s.spDec.pc + 2#8)).setPc (s.spDec.reg i))
  rwa [State.sp_spDec, State.spDec_pc] at h

theorem exec_ret_eq (s : State) : exec .ret s = .next (s.setPc (s.memRead s.sp)).spInc := rfl

theorem exec_jmp_cases (a : Byte) (s : State) :
    (∃ i, NamesReg a i ∧ exec (.jmp a) s = .next (s.setPc (s.reg i))) ∨
    (8 ≤ a.toNat ∧ exec (.jmp a) s = .next (s.raise .registerIndexFault Handler.jmp.opcode a)) :=
  jumpReg_cases .jmp a s

theorem exec_jeq_cases (a : Byte) (s : State) :
    (s.flE = false ∧ exec (.jeq a) s = .next (s.advance 2#8)) ∨
    (s.flE = true ∧ ∃ i, NamesReg a i ∧ exec (.jeq a) s = .next (s.setPc (s.reg i))) ∨
    (s.flE = true ∧ 8 ≤ a.toNat ∧ exec (.jeq a) s = .next (s.raise .registerIndexFault Handler.jeq.opcode a)) := by
  show _ ∨ (_ ∧ ∃ i, _ ∧ execJeq a s = _) ∨ _
  cases h : s.flE with
  | false => exact .inl ⟨rfl, by simp [exec, execJeq, h]⟩
  | true =>
    have e : execJeq a s = jumpReg .jeq a s := by simp [execJeq, h]
    obtain ⟨i, r⟩ | r := jumpReg_cases .jeq a s
    · exact .inr (.inl ⟨rfl, i, r.1, e.trans r.2⟩)
    · exact .inr (.inr ⟨rfl, r.1, e.trans r.2⟩)

theorem exec_jne_cases (a : Byte) (s : State) :
    (s.flE = true ∧ exec (.jne a) s = .next (s.advance 2#8)) ∨
    (s.flE = false ∧ ∃ i, NamesReg a i ∧ exec (.jne a) s = .next (s.setPc (s.reg i))) ∨
    (s.flE = false ∧ 8 ≤ a.toNat ∧ exec (.jne a) s = .next (s.raise .registerIndexFault Handler.jne.opcode a)) := by
  show _ ∨ (_ ∧ ∃ i, _ ∧ execJne a s = _) ∨ _
  cases h : s.flE with
  | true => exact .inl ⟨rfl, by simp [exec, execJne, h]⟩
  | false =>
    have e : execJne a s = jumpReg .jne a s := by simp [execJne, h]
    obtain ⟨i, r⟩ | r := jumpReg_cases .jne a s
    · exact .inr (.inl ⟨rfl, i, r.1, e.trans r.2⟩)
    · exact .inr (.inr ⟨rfl, r.1, e.trans r.2⟩)

theorem exec_hlt_eq (s : State) : exec .hlt s = .next s.halt := rfl

/-! ## All of it at once -/

/-- Every way an instruction leads from one state to the next. -/
inductive Effect (s : State) : Instr → State → Prop where
  | badOperand (i : Instr) (b : Byte) (used : b ∈ usedOperands i s) (bad : 8 ≤ b.toNat) :
      Effect s i (s.raise .registerIndexFault i.handler.opcode b)
  | prn (a : Byte) (k : Fin 8) (ha : NamesReg a k) : Effect s (.prn a) ((s.emit (s.reg k)).advance 2#8)
  | ldi (a imm : Byte) (k : Fin 8) (ha : NamesReg a k) : Effect s (.ldi a imm) ((s.setReg k imm).advance 3#8)
  | mul (a b : Byte) (k l : Fin 8) (ha : NamesReg a k) (hb : NamesReg b l) :
      Effect s (.mul a b) ((s.setReg k (s.reg k * s.reg l)).advance 3#8)
  | add (a b : Byte) (k l : Fin 8) (ha : NamesReg a k) (hb : NamesReg b l) :
      Effect s (.add a b) ((s.setReg k (s.reg k + s.reg l)).advance 3#8)
  | cmp (a b : Byte) (k l : Fin 8) (ha : NamesReg a k) (hb : NamesReg b l) :
      Effect s (.cmp a b) ((s.setFl (cmpFlags (s.reg k) (s.reg l))).advance 3#8)
  | push (a : Byte) (k : Fin 8) (ha : NamesReg a k) :
      Effect s (.push a) ((s.spDec.memWrite (s.sp - 1#8) (s.spDec.reg k)).advance 2#8)
  | pop (a : Byte) (k : Fin 8) (ha : NamesReg a k) :
      Effect s (.pop a) ((s.setReg k (s.memRead s.sp)).spInc.advance 2#8)
  | call (a : Byte) (k : Fin 8) (ha : NamesReg a k) :
      Effect s (.call a) ((s.spDec.memWrite (s.sp - 1#8) (s.pc + 2#8)).setPc (s.spDec.reg k))
  | ret : Effect s .ret (s.setPc (s.memRead s.sp)).spInc
  | jmp (a : Byte) (k : Fin 8) (ha : NamesReg a k) : Effect s (.jmp a) (s.setPc (s.reg k))
  | jeqTaken (a : Byte) (k : Fin 8) (hf : s.flE = true) (ha : NamesReg a k) :
      Effect s (.jeq a) (s.setPc (s.reg k))
  | jeqNot (a : Byte) (hf : s.flE = false) : Effect s (.jeq a) (s.advance 2#8)
  | jneTaken (a : Byte) (k : Fin 8) (hf : s.flE = false) (ha : NamesReg a k) :
      Effect s (.jne a) (s.setPc (s.reg k))
  | jneNot (a : Byte) (hf : s.flE = true) : Effect s (.jne a) (s.advance 2#8)
  | hlt : Effect s .hlt s.halt

/-- An operand of an instruction that does not fall through is in use. -/
theorem mem_usedOperands {i : Instr} {s : State} {b : Byte} (hf : fallsThrough i s = false) (hb : b ∈ i.regOperands) :
    b ∈ usedOperands i s := by
  simpa [usedOperands, hf] using hb

/-- Everything exec can do, said once: every instruction answers a next state, by one of the ways above. -/
theorem exec_effect (i : Instr) (s : State) : ∃ t, exec i s = .next t ∧ Effect s i t := by
  cases i with
  | prn a =>
    obtain ⟨k, ha, e⟩ | ⟨ha, e⟩ := exec_prn_cases a s
    · exact ⟨_, e, .prn a k ha⟩
    · exact ⟨_, e, .badOperand _ a (mem_usedOperands rfl (by simp [Instr.regOperands])) ha⟩
  | ldi a imm =>
    obtain ⟨k, ha, e⟩ | ⟨ha, e⟩ := exec_ldi_cases a imm s
    · exact ⟨_, e, .ldi a imm k ha⟩
    · exact ⟨_, e, .badOperand _ a (mem_usedOperands rfl (by simp [Instr.regOperands])) ha⟩
  | mul a b =>
    obtain ⟨k, l, ha, hb, e⟩ | ⟨ha, e⟩ | ⟨-, hb, e⟩ := exec_mul_cases a b s
    · exact ⟨_, e, .mul a b k l ha hb⟩
    · exact ⟨_, e, .badOperand _ a (mem_usedOperands rfl (by simp [Instr.regOperands])) ha⟩
    · exact ⟨_, e, .badOperand _ b (mem_usedOperands rfl (by simp [Instr.regOperands])) hb⟩
  | add a b =>
    obtain ⟨k, l, ha, hb, e⟩ | ⟨ha, e⟩ | ⟨-, hb, e⟩ := exec_add_cases a b s
    · exact ⟨_, e, .add a b k l ha hb⟩
    · exact ⟨_, e, .badOperand _ a (mem_usedOperands rfl (by simp [Instr.regOperands])) ha⟩
    · exact ⟨_, e, .badOperand _ b (mem_usedOperands rfl (by simp [Instr.regOperands])) hb⟩
  | cmp a b =>
    obtain ⟨k, l, ha, hb, e⟩ | ⟨ha, e⟩ | ⟨-, hb, e⟩ := exec_cmp_cases a b s
    · exact ⟨_, e, .cmp a b k l ha hb⟩
    · exact ⟨_, e, .badOperand _ a (mem_usedOperands rfl (by simp [Instr.regOperands])) ha⟩
    · exact ⟨_, e, .badOperand _ b (mem_usedOperands rfl (by simp [Instr.regOperands])) hb⟩
  | push a =>
    obtain ⟨k, ha, e⟩ | ⟨ha, e⟩ := exec_push_cases a s
    · exact ⟨_, e, .push a k ha⟩
    · exact ⟨_, e, .badOperand _ a (mem_usedOperands rfl (by simp [Instr.regOperands])) ha⟩
  | pop a =>
    obtain ⟨k, ha, e⟩ | ⟨ha, e⟩ := exec_pop_cases a s
    · exact ⟨_, e, .pop a k ha⟩
    · exact ⟨_, e, .badOperand _ a (mem_usedOperands rfl (by simp [Instr.regOperands])) ha⟩
  | call a =>
    obtain ⟨k, ha, e⟩ | ⟨ha, e⟩ := exec_call_cases a s
    · exact ⟨_, e, .call a k ha⟩
    · exact ⟨_, e, .badOperand _ a (mem_usedOperands rfl (by simp [Instr.regOperands])) ha⟩
  | ret => exact ⟨_, exec_ret_eq s, .ret⟩
  | jmp a =>
    obtain ⟨k, ha, e⟩ | ⟨ha, e⟩ := exec_jmp_cases a s
    · exact ⟨_, e, .jmp a k ha⟩
    · exact ⟨_, e, .badOperand _ a (mem_usedOperands rfl (by simp [Instr.regOperands])) ha⟩
  | jeq a =>
    obtain ⟨hf, e⟩ | ⟨hf, k, ha, e⟩ | ⟨hf, ha, e⟩ := exec_jeq_cases a s
    · exact ⟨_, e, .jeqNot a hf⟩
    · exact ⟨_, e, .jeqTaken a k hf ha⟩
    · exact ⟨_, e, .badOperand _ a (mem_usedOperands (by simp [fallsThrough, hf]) (by simp [Instr.regOperands])) ha⟩
  | jne a =>
    obtain ⟨hf, e⟩ | ⟨hf, k, ha, e⟩ | ⟨hf, ha, e⟩ := exec_jne_cases a s
    · exact ⟨_, e, .jneNot a hf⟩
    · exact ⟨_, e, .jneTaken a k hf ha⟩
    · exact ⟨_, e, .badOperand _ a (mem_usedOperands (by simp [fallsThrough, hf]) (by simp [Instr.regOperands])) ha⟩
  | hlt => exact ⟨_, exec_hlt_eq s, .hlt⟩

/-- The same, from a given next state. -/
theorem effect_of_exec {i : Instr} {s t : State} (h : exec i s = .next t) : Effect s i t := by
  obtain ⟨u, hu, e⟩ := exec_effect i s
  rw [h, Host.Outcome.next.injEq] at hu
  exact hu ▸ e

/-! ## The step -/

theorem step_of_fetched {s : State} {i : Instr} (hr : s.run = .running) (hf : s.fetched = some i) :
    step s = exec i s := by
  simp [step, hr, hf]

theorem step_of_undefined {s : State} (hr : s.run = .running) (hf : s.fetched = none) :
    step s = .next (s.raise .decodeFault (s.memRead s.pc) 0#8) := by
  simp [step, hr, hf, undefinedOpcode]

theorem step_of_halted {s : State} (hr : s.run = .halted) : step s = .fault .stepWhileHalted := by
  simp [step, hr, stepHalted]

theorem step_of_faulted {s : State} (hr : s.run = .faulted) : step s = .fault .stepWhileFaulted := by
  simp [step, hr, stepFaulted]

/-- A step that answers a next state ran an instruction or took DecodeFault. -/
theorem step_cases {s t : State} (h : step s = .next t) :
    s.run = .running ∧
    ((∃ i, s.fetched = some i ∧ exec i s = .next t) ∨
     (s.fetched = none ∧ t = s.raise .decodeFault (s.memRead s.pc) 0#8)) := by
  cases hr : s.run with
  | halted => rw [step_of_halted hr] at h; cases h
  | faulted => rw [step_of_faulted hr] at h; cases h
  | running =>
    refine ⟨rfl, ?_⟩
    cases hf : s.fetched with
    | some i => exact .inl ⟨i, rfl, step_of_fetched hr hf ▸ h⟩
    | none =>
      rw [step_of_undefined hr hf, Host.Outcome.next.injEq] at h
      exact .inr ⟨rfl, h.symm⟩

/-- The instruction fetched is its handler's, with the bytes at pc + 1 and pc + 2. -/
theorem fetched_shape {s : State} {i : Instr} (h : s.fetched = some i) :
    i = i.handler.instr (s.memRead (s.pc + 1#8)) (s.memRead (s.pc + 2#8)) := by
  have ho := State.opcode_of_fetched h
  rw [State.fetched_eq, ← ho, dispatch_opcode, Option.map_some, Option.some.injEq] at h
  exact h.symm

/-- An opcode byte at pc is fetched as its handler's instruction. -/
theorem fetched_of_opcode {s : State} (h : Handler) (e : s.memRead s.pc = h.opcode) :
    s.fetched = some (h.instr (s.memRead (s.pc + 1#8)) (s.memRead (s.pc + 2#8))) := by
  rw [State.fetched_eq, e, dispatch_opcode]
  rfl

/-! ## Runs of several steps -/

theorem run_zero (s : State) : core.run 0 s = .next s := rfl

theorem run_succ_of_next {s t : State} (n : Nat) (h : step s = .next t) : core.run (n + 1) s = core.run n t := by
  simp [Host.Core.run, core, h]

/-- A run of at least one step took a first step. -/
theorem step_of_run_succ {s t : State} {n : Nat} (h : core.run (n + 1) s = .next t) :
    ∃ u, step s = .next u ∧ core.run n u = .next t := by
  cases hs : step s with
  | next u => exact ⟨u, rfl, run_succ_of_next n hs ▸ h⟩
  | fault r => simp [Host.Core.run, core, hs] at h
  | refused r => simp [Host.Core.run, core, hs] at h

end Sys2Proof.Machine
end

