-- ==== Sys2Proof/Laws/PerInstr.lean ====
section
/-! SUPPORT. What holds of every instruction as a term, one lemma per constructor. -/

namespace Sys2Proof.Laws

namespace RoundTrip

/-- The bytes of `i`, whatever follows them, decode to `i` and leave what follows (rules R65, R68, R83). -/
def Statement (i : Instr) : Prop := ∀ rest : List Byte, decode (encode i ++ rest) = .instr i rest

theorem prn (a : Byte) : Statement (.prn a) := fun _ => rfl
theorem ldi (a imm : Byte) : Statement (.ldi a imm) := fun _ => rfl
theorem mul (a b : Byte) : Statement (.mul a b) := fun _ => rfl
theorem add (a b : Byte) : Statement (.add a b) := fun _ => rfl
theorem cmp (a b : Byte) : Statement (.cmp a b) := fun _ => rfl
theorem push (a : Byte) : Statement (.push a) := fun _ => rfl
theorem pop (a : Byte) : Statement (.pop a) := fun _ => rfl
theorem call (a : Byte) : Statement (.call a) := fun _ => rfl
theorem ret : Statement .ret := fun _ => rfl
theorem jmp (a : Byte) : Statement (.jmp a) := fun _ => rfl
theorem jeq (a : Byte) : Statement (.jeq a) := fun _ => rfl
theorem jne (a : Byte) : Statement (.jne a) := fun _ => rfl
theorem hlt : Statement .hlt := fun _ => rfl

end RoundTrip

namespace OpcodeByte

/-- The encoder's first byte (rule R83's table) is the dispatch table's opcode (rule R74's), and the encoder emits exactly
`len` bytes (rule R68). -/
def Statement (i : Instr) : Prop :=
  (encode i).head? = some i.handler.opcode ∧ (encode i).length = i.handler.len

theorem prn (a : Byte) : Statement (.prn a) := ⟨rfl, rfl⟩
theorem ldi (a imm : Byte) : Statement (.ldi a imm) := ⟨rfl, rfl⟩
theorem mul (a b : Byte) : Statement (.mul a b) := ⟨rfl, rfl⟩
theorem add (a b : Byte) : Statement (.add a b) := ⟨rfl, rfl⟩
theorem cmp (a b : Byte) : Statement (.cmp a b) := ⟨rfl, rfl⟩
theorem push (a : Byte) : Statement (.push a) := ⟨rfl, rfl⟩
theorem pop (a : Byte) : Statement (.pop a) := ⟨rfl, rfl⟩
theorem call (a : Byte) : Statement (.call a) := ⟨rfl, rfl⟩
theorem ret : Statement .ret := ⟨rfl, rfl⟩
theorem jmp (a : Byte) : Statement (.jmp a) := ⟨rfl, rfl⟩
theorem jeq (a : Byte) : Statement (.jeq a) := ⟨rfl, rfl⟩
theorem jne (a : Byte) : Statement (.jne a) := ⟨rfl, rfl⟩
theorem hlt : Statement .hlt := ⟨rfl, rfl⟩

end OpcodeByte

end Sys2Proof.Laws
end

