-- ==== Sys2Proof/Tests/Slice0.lean ====
section
/-! SUPPORT. Tests and witnesses. Expected results come from spec/95_test_vectors.md (V and W numbers), or are worked out
by hand from the rule a comment names; none is the model's own answer. -/

namespace Sys2Proof.Tests
open Sys2Proof Sys2Proof.Machine

/-- Reset with bytes stored from an address and pc there. -/
def code (p : Byte) (bytes : List Byte) : State := { State.reset.storeBytes p bytes with pc := p }

/-- One step, then a question about its next state. -/
def after (s : State) (q : State → Bool) : Bool := (nextOf (step s)).any q

/-! ## Ill-formed instructions, one per check -/

theorem test_illformed_operand_A :
    [Instr.prn 8, .ldi 8 5, .mul 8 0, .add 8 0, .cmp 8 0, .push 8, .pop 8, .call 9, .jmp 9, .jeq 9, .jne 255].all
      (fun i => !i.wellFormed) = true := by decide

theorem test_illformed_operand_B : [Instr.mul 7 8, .add 0 9, .cmp 0 255].all (fun i => !i.wellFormed) = true := by decide

theorem test_wellformed : [Instr.prn 7, .ldi 0 255, .mul 0 7, .ret, .hlt].all Instr.wellFormed = true := by decide

/-! ## Decoding: a word of every row, written out from the spec's encoding (rules R74, R83, table column "encoding") -/

theorem test_decode_prn : decode [0b01000111, 0b00000101] = .instr (.prn 5) [] := by decide
theorem test_decode_ldi : decode [0b10000010, 0b00000111, 0b10000000] = .instr (.ldi 7 128) [] := by decide
theorem test_decode_mul : decode [0b10100010, 0b00000000, 0b00000001] = .instr (.mul 0 1) [] := by decide
theorem test_decode_add : decode [0b10100000, 0b00000001, 0b00000010] = .instr (.add 1 2) [] := by decide
theorem test_decode_cmp : decode [0b10100111, 0b00000100, 0b00000011] = .instr (.cmp 4 3) [] := by decide
theorem test_decode_push : decode [0b01000101, 0b00000110, 0b11111111] = .instr (.push 6) [0xFF] := by decide
theorem test_decode_pop : decode [0b01000110, 0b00000010] = .instr (.pop 2) [] := by decide
theorem test_decode_call : decode [0b01010000, 0b00001001] = .instr (.call 9) [] := by decide
theorem test_decode_ret : decode [0b00010001, 0b01000111] = .instr .ret [0x47] := by decide
theorem test_decode_jmp : decode [0b01010100, 0b00000011] = .instr (.jmp 3) [] := by decide
theorem test_decode_jeq : decode [0b01010101, 0b00000010] = .instr (.jeq 2) [] := by decide
theorem test_decode_jne : decode [0b01010110, 0b00000011] = .instr (.jne 3) [] := by decide
theorem test_decode_hlt : decode [0b00000001] = .instr .hlt [] := by decide

/-- V59: bits 7:6 = 01, yet no opcode (rule R69); V58, V60, V61. -/
theorem test_decode_undefined :
    [0x48#8, 0x00, 0xFF, 0x02].map (fun b => decode [b, 0, 0]) =
      [.undefinedOpcode 0x48, .undefinedOpcode 0x00, .undefinedOpcode 0xFF, .undefinedOpcode 0x02] := by decide

/-- The table's numbering: the first byte is bits 7..0, so `LDI R0,55` (82 00 37) is 0x370082. -/
theorem test_table_word : decodeTableWord 24 0x370082 = some (.ldi 0 55) := by decide

/-- A row of 8 bits: the bits above are zero operand bytes. -/
theorem test_table_word_short : decodeTableWord 8 0xFF47 = some (.prn 0) := by decide

theorem test_fetch_word : after (State.reset.withFetchWord 24 0x370082) (fun t => t.reg 0 = 55 ∧ t.pc = 3) = true := by decide

/-! ## The instructions -/

/-- V6. -/
theorem test_prn_sp : after (code 0 [0x47, 7]) (fun t => t.output = [244] ∧ t.pc = 2) = true := by decide
/-- V7. -/
theorem test_prn_bad : after (code 0 [0x47, 0xFF]) (fun t => t.run = .faulted ∧ t.fault.info = 0xFF ∧ t.output = []) = true := by
  decide

/-- V4: the immediate is fetched from 0x00. -/
theorem test_ldi_wraps : after (code 0xFE [0x82, 2, 0x2A]) (fun t => t.reg 2 = 0x2A ∧ t.pc = 1) = true := by decide
/-- V3. -/
theorem test_ldi_bad : after (code 0 [0x82, 8, 5])
    (fun t => t.fault = { cause := 2, pc := 0, ic := 0x82, info := 8 } ∧ t.regs = RegFile.reset ∧ t.pc = 0) = true := by decide

/-- V17. -/
theorem test_mul_wraps : after (((code 0 [0xA2, 0, 1]).setReg 0 255).setReg 1 255) (fun t => t.reg 0 = 1 ∧ t.reg 1 = 255) = true := by
  decide
/-- V18. -/
theorem test_mul_squares : after ((code 0 [0xA2, 1, 1]).setReg 1 15) (fun t => t.reg 1 = 225) = true := by decide

/-- V62 with V9's operands: the operand bytes are at 0x00 and 0x01, 250 + 10 = 4. -/
theorem test_add_wraps : after (((code 0xFF [0xA0, 0, 1]).setReg 0 250).setReg 1 10)
    (fun t => t.reg 0 = 4 ∧ t.reg 1 = 10 ∧ t.pc = 2 ∧ t.fl = 0) = true := by decide
/-- V14: A is checked first. -/
theorem test_add_bad : after (code 0 [0xA0, 8, 9]) (fun t => t.run = .faulted ∧ t.fault.info = 8) = true := by decide

/-- V23: unsigned. -/
theorem test_cmp_unsigned : after (((code 0 [0xA7, 0, 1]).setReg 0 0x80).setReg 1 0x7F) (fun t => t.fl = 0x02 ∧ t.pc = 3) = true := by
  decide
/-- V25: the old L is cleared. -/
theorem test_cmp_clears : after ((code 0 [0xA7, 4, 4]).setFl 0x04) (fun t => t.fl = 0x01) = true := by decide

/-- V30. -/
theorem test_push_sp : after (code 0 [0x45, 7]) (fun t => t.sp = 0xF3 ∧ t.memRead 0xF3 = 0xF3) = true := by decide
/-- V29. -/
theorem test_push_wraps : after (((code 0 [0x45, 0]).setReg 7 0).setReg 0 0x11)
    (fun t => t.sp = 0xFF ∧ t.memRead 0xFF = 0x11 ∧ t.pc = 2) = true := by decide

/-- V33. -/
theorem test_pop_sp : after (((code 0 [0x46, 7]).setReg 7 0xF3).memWrite 0xF3 0x10) (fun t => t.sp = 0x11) = true := by decide
/-- V32. -/
theorem test_pop_wraps : after (((code 0 [0x46, 1]).setReg 7 0xFF).memWrite 0xFF 0x33)
    (fun t => t.reg 1 = 0x33 ∧ t.sp = 0 ∧ t.memRead 0xFF = 0x33) = true := by decide

/-- V39. -/
theorem test_call_sp : after (code 0x20 [0x50, 7]) (fun t => t.sp = 0xF3 ∧ t.memRead 0xF3 = 0x22 ∧ t.pc = 0xF3) = true := by decide
/-- V38: the return address wraps to 0x00, which writes no cell. -/
theorem test_call_wraps : after ((code 0xFE [0x50, 1]).setReg 1 0x40)
    (fun t => t.memRead 0xF3 = 0 ∧ t.sp = 0xF3 ∧ t.pc = 0x40) = true := by decide

/-- V41. -/
theorem test_ret : after (((code 0 [0x11]).setReg 7 0xF3).memWrite 0xF3 0x0A) (fun t => t.pc = 0x0A ∧ t.sp = 0xF4) = true := by decide
/-- V42. -/
theorem test_ret_wraps : after (((code 0 [0x11]).setReg 7 0xFF).memWrite 0xFF 5) (fun t => t.pc = 5 ∧ t.sp = 0) = true := by decide

/-- V45: the state is unchanged. -/
theorem test_jmp_self : after ((code 0x30 [0x54, 3]).setReg 3 0x30) (fun t => t = (code 0x30 [0x54, 3]).setReg 3 0x30) = true := by
  decide
/-- V46. -/
theorem test_jmp_bad : after (code 0 [0x54, 9]) (fun t => t.run = .faulted ∧ t.fault.info = 9) = true := by decide

/-- V47. -/
theorem test_jeq_taken : after (((code 0x0C [0x55, 2]).setReg 2 0x10).setFl 1) (fun t => t.pc = 0x10) = true := by decide
/-- V50: not taken, so the bad operand is not checked. -/
theorem test_jeq_not_taken : after ((code 0x0C [0x55, 9]).setFl 4) (fun t => t.pc = 0x0E ∧ t.run = .running) = true := by decide

/-- V53. -/
theorem test_jne_taken : after (((code 0x14 [0x56, 3]).setReg 3 0x0C).setFl 2) (fun t => t.pc = 0x0C) = true := by decide
/-- V55: not taken, so the bad operand is not checked. -/
theorem test_jne_not_taken : after ((code 0x14 [0x56, 9]).setFl 1) (fun t => t.pc = 0x16 ∧ t.run = .running) = true := by decide

/-- V57. -/
theorem test_hlt : after (code 0x0B [0x01]) (fun t => t = (code 0x0B [0x01]).halt) = true := by decide

/-- V58. -/
theorem test_undefined : after (code 0x40 [])
    (fun t => t.run = .faulted ∧ t.fault = { cause := 1, pc := 0x40, ic := 0, info := 0 } ∧ t.pc = 0x40) = true := by decide

/-! ## The host's side -/

/-- Rule R87's file, with a comment and a blank line added (rule R86), gives rule R87's image. -/
theorem test_program_file :
    imageOfLines (textLines
      "10000010 # LDI R0,55\n00000000\n00110111\n\n01000111 # PRN R0\n00000000\n# end\n00000001\n".toList) =
      some [0x82, 0x00, 0x37, 0x47, 0x00, 0x01] := by decide

/-- Rule R86: fewer than 8 binary digits is a load error. -/
theorem test_short_literal : parseLine "1000001".toList = .malformed ∧ parseLine "1000 0010".toList = .malformed := by decide

/-- Rule R92's own example, and 0 and 244 (V5, V6). -/
theorem test_render :
    renderByte 72 = ['7', '2', '\n'] ∧ renderByte 0 = ['0', '\n'] ∧ renderByte 244 = ['2', '4', '4', '\n'] := by decide

/-- Rule R82's examples. -/
theorem test_assembly :
    assembly (.ldi 0 55) = "LDI R0,55".toList ∧ assembly (.mul 0 1) = "MUL R0,R1".toList ∧
    assembly (.prn 0) = "PRN R0".toList ∧ assembly .hlt = "HLT".toList := by decide

/-- Writing the reset byte takes the cell out: equal memories are equal data. -/
theorem test_memory_canonical : (((Memory.write [] 5 1).write 3 2).write 5 0) = [(3, 2)] := by decide

/-! ## Witnesses: for each statement with hypotheses, a state and operands that meet them, clause by clause, at the ends of
the ranges. No operand byte falls under two clauses: a byte is below 8 or not, E is set or clear, and an opcode byte is
one value. -/

/-- A register operand at both ends of 0 to 7, a bad one at both ends of 8 to 255. -/
theorem witness_operand_range :
    NamesReg 0 0 ∧ NamesReg 7 7 ∧ 8 ≤ (8 : Byte).toNat ∧ 8 ≤ (255 : Byte).toNat ∧ (7 : Byte).toNat < 8 := by decide

theorem witness_PrnEmitsRegister : NamesReg 7 7 ∧ 8 ≤ (8 : Byte).toNat := by decide
theorem witness_LdiWritesImmediate : NamesReg 7 7 ∧ 8 ≤ (8 : Byte).toNat := by decide
theorem witness_MulWritesProductModulo256 :
    (NamesReg 0 0 ∧ NamesReg 7 7) ∧ 8 ≤ (8 : Byte).toNat ∧ ((7 : Byte).toNat < 8 ∧ 8 ≤ (8 : Byte).toNat) := by decide
theorem witness_AddWritesSumModulo256 :
    (NamesReg 0 0 ∧ NamesReg 7 7) ∧ 8 ≤ (8 : Byte).toNat ∧ ((7 : Byte).toNat < 8 ∧ 8 ≤ (8 : Byte).toNat) := by decide
/-- The three orders too, next to each other. -/
theorem witness_CmpWritesExactlyOneFlag :
    (NamesReg 0 0 ∧ NamesReg 7 7) ∧
    ((State.reset.setReg 0 0xF4).reg 0).toNat = ((State.reset.setReg 0 0xF4).reg 7).toNat ∧
    ((State.reset.setReg 0 0xF3).reg 0).toNat < ((State.reset.setReg 0 0xF3).reg 7).toNat ∧
    ((State.reset.setReg 0 0xF5).reg 7).toNat < ((State.reset.setReg 0 0xF5).reg 0).toNat ∧
    8 ≤ (8 : Byte).toNat ∧ ((7 : Byte).toNat < 8 ∧ 8 ≤ (8 : Byte).toNat) := by decide
theorem witness_PushStoresBelowStackPointer :
    NamesReg 7 7 ∧ 8 ≤ (8 : Byte).toNat ∧ (0xF2 : Byte) ≠ State.reset.spDec.sp := by decide
theorem witness_PopLoadsFromStackPointer :
    (NamesReg 6 6 ∧ (6 : Fin 8) ≠ 7) ∧ NamesReg 7 7 ∧ 8 ≤ (8 : Byte).toNat := by decide
theorem witness_CallPushesReturnAddressAndJumps :
    NamesReg 7 7 ∧ 8 ≤ (8 : Byte).toNat ∧ (0xF4 : Byte) ≠ State.reset.spDec.sp := by decide
theorem witness_JmpTakesRegister : NamesReg 7 7 ∧ 8 ≤ (8 : Byte).toNat := by decide
theorem witness_JeqTakesRegisterIfEqual :
    ((State.reset.setFl 1).fl.getLsbD 0 = true ∧ NamesReg 7 7) ∧ 8 ≤ (8 : Byte).toNat ∧
    State.reset.fl.getLsbD 0 = false := by decide
theorem witness_JneTakesRegisterIfNotEqual :
    (State.reset.fl.getLsbD 0 = false ∧ NamesReg 7 7) ∧ 8 ≤ (8 : Byte).toNat ∧
    (State.reset.setFl 1).fl.getLsbD 0 = true := by decide
theorem witness_HltEndsTheRun : (code 0xFF [0x01]).run = .running ∧ (code 0xFF [0x01]).memRead (code 0xFF [0x01]).pc = 0x01 := by
  decide
theorem witness_UndefinedOpcodeFaults : State.reset.run = .running ∧ dispatch (State.reset.memRead State.reset.pc) = none := by
  decide
theorem witness_BytesPastLengthAreIgnored :
    (dispatch 0x47 = some .prn ∧ Handler.prn.len ≤ 2) ∧ (dispatch 0x11 = some .ret ∧ Handler.ret.len = 1) := by decide
theorem witness_StepFollowsTheRunLoop :
    ((code 0 [1]).run = .running ∧ (code 0 [1]).memRead 0 = 0x01) ∧
    (State.reset.run = .running ∧ dispatch (State.reset.memRead 0) = none) ∧
    ((code 0xFF [0x82, 2, 9]).run = .running ∧
      decode [(code 0xFF [0x82, 2, 9]).memRead 0xFF, (code 0xFF [0x82, 2, 9]).memRead 0x00, (code 0xFF [0x82, 2, 9]).memRead 0x01] =
        .instr (.ldi 2 9) []) ∧
    State.reset.halt.run ≠ .running := by decide
theorem witness_StoredInstructionIsTheOneRun : State.reset.run = .running := rfl
theorem witness_FetchWordIsTheOneRun : decodeTableWord 8 0x11 = some .ret := by decide
theorem witness_RunningStepAlwaysCompletes : State.reset.run = .running := rfl
theorem witness_RunStateTransitions :
    (∃ t, step (code 0 [1]) = .next t) ∧ (State.reset.raise .decodeFault 0 0).run ≠ .running := ⟨⟨_, rfl⟩, by decide⟩
/-- DecodeFault at reset; RegisterIndexFault of `ADD R8,R9` on A. -/
theorem witness_FaultsAreThoseOfTheTable :
    (∃ t, step State.reset = .next t ∧ t.run = .faulted) ∧ dispatch (State.reset.memRead 0) = none ∧
    (∃ t, step (code 0 [0xA0, 8, 9]) = .next t) ∧ (code 0 [0xA0, 8, 9]).fetched = some (.add 8 9) ∧
    firstBadOperand (.add 8 9) (code 0 [0xA0, 8, 9]) = some 8 :=
  ⟨⟨_, rfl, rfl⟩, by decide, ⟨_, rfl⟩, by decide, by decide⟩
theorem witness_FaultIsPrecise : ∃ t, step (code 0 [0x45, 8]) = .next t ∧ t.run = .faulted := ⟨_, rfl, rfl⟩
/-- A bad operand, a good one, and a bad one that a branch not taken does not use. -/
theorem witness_ChecksHappenInOrder :
    (code 0 [1]).memRead 0 = 0x01 ∧ dispatch (State.reset.memRead 0) = none ∧
    ((code 0 [0x47, 8]).fetched = some (.prn 8) ∧ firstBadOperand (.prn 8) (code 0 [0x47, 8]) = some 8) ∧
    ((code 0 [0x47, 7]).fetched = some (.prn 7) ∧ firstBadOperand (.prn 7) (code 0 [0x47, 7]) = none) ∧
    ((code 0 [0x55, 9]).fetched = some (.jeq 9) ∧ firstBadOperand (.jeq 9) (code 0 [0x55, 9]) = none) := by decide
theorem witness_AluByteComputes : NamesReg 0 0 ∧ NamesReg 7 7 ∧ (0 : Byte).toNat < (255 : Byte).toNat := by decide
theorem witness_AluOpFaultIsUnreachable : NamesReg 0 0 ∧ NamesReg 7 7 ∧ ∃ t, step State.reset = .next t ∧ t.run = .faulted :=
  ⟨rfl, rfl, _, rfl, rfl⟩
/-- An ADD step; a JEQ step and an fl that agrees in bit 0; a CMP step that does not fault. -/
theorem witness_FlagsAreWrittenByCmpAndReadByBranches :
    (∃ t, step (code 0 [0xA0, 0, 1]) = .next t) ∧ (code 0 [0xA0, 0, 1]).memRead 0 ≠ 0xA7 ∧
    (∃ t, step (code 0 [0x55, 0]) = .next t) ∧ (0x06 : Byte).getLsbD 0 = (code 0 [0x55, 0]).fl.getLsbD 0 ∧
    (∃ t, step (code 0 [0xA7, 0, 1]) = .next t ∧ t.run ≠ .faulted) :=
  ⟨⟨_, rfl⟩, by decide, ⟨_, rfl⟩, by decide, ⟨_, rfl, by decide⟩⟩
theorem witness_OutputGrowsByPrnOnly : ∃ t, step (code 0 [0x47, 7]) = .next t := ⟨_, rfl⟩
/-- A PUSH that changes a byte, and a CALL that does. -/
theorem witness_OnlyPushAndCallWriteMemory :
    (∃ t, step (code 0 [0x45, 7]) = .next t ∧ t.memRead 0xF3 ≠ (code 0 [0x45, 7]).memRead 0xF3) ∧
    (∃ t, step (code 0 [0x50, 0]) = .next t ∧ t.memRead 0xF3 ≠ (code 0 [0x50, 0]).memRead 0xF3) :=
  ⟨⟨_, rfl, by decide⟩, ⟨_, rfl, by decide⟩⟩
/-- LDI R6, and RET. -/
theorem witness_RegistersWrittenByEachOpcode :
    (∃ t, step (code 0 [0x82, 6, 1]) = .next t ∧ t.reg 6 ≠ (code 0 [0x82, 6, 1]).reg 6) ∧
    (∃ t, step (code 0 [0x11]) = .next t ∧ t.reg 7 ≠ (code 0 [0x11]).reg 7) := ⟨⟨_, rfl, by decide⟩, ⟨_, rfl, by decide⟩⟩
/-- One step for each clause: a halt, then each opcode, the branches both ways. -/
theorem witness_NewProgramCounterByOpcode :
    (∃ t, step (code 0 [1]) = .next t ∧ t.run ≠ .running) ∧
    (∃ t, step (code 0xFE [0x47, 7]) = .next t ∧ t.run = .running) ∧
    (∃ t, step (code 0xFD [0xA7, 0, 7]) = .next t ∧ t.run = .running) ∧
    (∃ t, step (code 0 [0x50, 7]) = .next t ∧ t.run = .running) ∧
    (∃ t, step (code 0 [0x11]) = .next t ∧ t.run = .running) ∧
    (∃ t, step (code 0 [0x54, 7]) = .next t ∧ t.run = .running) ∧
    (∃ t, step ((code 0 [0x55, 7]).setFl 1) = .next t ∧ t.run = .running ∧ ((code 0 [0x55, 7]).setFl 1).fl.getLsbD 0 = true) ∧
    (∃ t, step (code 0 [0x55, 8]) = .next t ∧ t.run = .running ∧ (code 0 [0x55, 8]).fl.getLsbD 0 = false) ∧
    (∃ t, step (code 0 [0x56, 7]) = .next t ∧ t.run = .running ∧ (code 0 [0x56, 7]).fl.getLsbD 0 = false) ∧
    (∃ t, step ((code 0 [0x56, 8]).setFl 1) = .next t ∧ t.run = .running ∧ ((code 0 [0x56, 8]).setFl 1).fl.getLsbD 0 = true) :=
  ⟨⟨_, rfl, by decide⟩, ⟨_, rfl, rfl⟩, ⟨_, rfl, rfl⟩, ⟨_, rfl, rfl⟩, ⟨_, rfl, rfl⟩, ⟨_, rfl, rfl⟩, ⟨_, rfl, rfl, rfl⟩,
   ⟨_, rfl, rfl, rfl⟩, ⟨_, rfl, rfl, rfl⟩, ⟨_, rfl, rfl, rfl⟩⟩
theorem witness_PushThenPopRoundTrips : NamesReg 7 7 ∧ (NamesReg 6 6 ∧ NamesReg 0 0 ∧ (6 : Fin 8) ≠ 7 ∧ (0 : Fin 8) ≠ 7) := by decide
/-- A subroutine that has run elsewhere and changed R0 leaves such a u. -/
theorem witness_RetResumesAfterCall : NamesReg 7 7 ∧
    ∃ t, exec (.call 7) State.reset = .next t ∧
      ((t.setReg 0 9).setPc 0x40).sp = t.sp ∧ ((t.setReg 0 9).setPc 0x40).memRead t.sp = t.memRead t.sp :=
  ⟨rfl, _, rfl, rfl, rfl⟩
/-- P5's PUSH, and the same with a byte that is no opcode. -/
theorem witness_PushedByteIsFetchedNext :
    let s := ((code 6 [0x45, 0]).setReg 0 1).setReg 7 9
    let u := s.setReg 0 0
    (s.run = .running ∧ s.memRead s.pc = 0x45 ∧ NamesReg (s.memRead (s.pc + 1)) 0 ∧ s.spDec.sp = s.pc + 2 ∧ s.reg 0 = 0x01) ∧
    (u.run = .running ∧ u.memRead u.pc = 0x45 ∧ NamesReg (u.memRead (u.pc + 1)) 0 ∧ u.spDec.sp = u.pc + 2 ∧
      dispatch (u.reg 0) = none) := by decide
theorem witness_RunEndsAfterAUniqueNumberOfSteps :
    ∃ t : State, core.run 1 (code 0 [1]) = .next t ∧ t.run ≠ .running ∧ 0 < 1 := ⟨_, rfl, by decide, by decide⟩
/-- V45. -/
theorem witness_JumpToItselfHangs :
    let s := (code 0x30 [0x54, 3]).setReg 3 0x30
    s.run = .running ∧ s.memRead s.pc = 0x54 ∧ NamesReg (s.memRead (s.pc + 1)) 3 ∧ s.reg 3 = s.pc := by decide
theorem witness_StepKeepsInvariant : State.reset.Inv ∧ ∃ t, step State.reset = .next t := ⟨by decide, _, rfl⟩
theorem witness_LaunchSatisfiesInvariant : ∃ t, launch [0x82, 0x00, 0x37] = .next t := ⟨_, rfl⟩
theorem witness_LaunchLoadsImageAtZero :
    ([] : List Byte).length ≤ 256 ∧ (List.replicate 256 (0x01 : Byte)).length ≤ 256 :=
  ⟨by decide, by rw [List.length_replicate]⟩
theorem witness_OversizedImageIsRefused : 256 < (List.replicate 257 (0x00 : Byte)).length := by
  rw [List.length_replicate]; decide
theorem witness_ProgramLineGivesItsByte : '#' ≠ '0' ∧ '#' ≠ '1' := by decide

end Sys2Proof.Tests
end

section
/-! PROOFS. The state: flags, output stream, stack pointer and reset (spec/10_state.md). A claim that nothing reads a piece
of state is about two runs of one step, from states that differ in that piece alone: `BothNext` relates their answers, one
rule for each way a meaning is built, and `step_bothNext` lifts the relation from the instructions to the step. -/

namespace Sys2Proof.Machine

/-! ## Two runs of one step -/

/-- Both answer a next state, and these are related by `R`. -/
def BothNext (R : State → State → Prop) (x y : Out) : Prop := ∃ t t', x = .next t ∧ y = .next t' ∧ R t t'

variable {R : State → State → Prop} {s s' t : State}

theorem bothNext_next {t' : State} (h : R t t') : BothNext R (.next t) (.next t') := ⟨t, t', rfl, rfl, h⟩

/-- What the second answers when the first is known. -/
theorem BothNext.next_right {x y : Out} (h : BothNext R x y) (hx : x = .next t) :
    ∃ t', y = .next t' ∧ R t t' := by
  obtain ⟨u, t', hu, hy, hR⟩ := h
  cases hx.symm.trans hu
  exact ⟨t', hy, hR⟩

/-- The operand check depends on the operand byte alone. -/
theorem chkReg_bothNext {h : Handler} {b : Byte} {k k' : Fin 8 → Out}
    (bad : R (s.raise .registerIndexFault h.opcode b) (s'.raise .registerIndexFault h.opcode b))
    (good : ∀ i, BothNext R (k i) (k' i)) : BothNext R (chkReg h b s k) (chkReg h b s' k') := by
  unfold chkReg
  split
  · exact good _
  · exact bothNext_next bad

theorem ite_bothNext {c c' : Prop} [Decidable c] [Decidable c'] (hc : c' ↔ c) {x y x' y' : Out}
    (hx : BothNext R x x') (hy : BothNext R y y') :
    BothNext R (if c then x else y) (if c' then x' else y') := by
  by_cases h : c
  · rwa [if_pos h, if_pos (hc.2 h)]
  · rwa [if_neg h, if_neg (mt hc.1 h)]

theorem jumpReg_bothNext {h : Handler} {a : Byte}
    (bad : R (s.raise .registerIndexFault h.opcode a) (s'.raise .registerIndexFault h.opcode a))
    (good : ∀ i, R (s.setPc (s.reg i)) (s'.setPc (s'.reg i))) : BothNext R (jumpReg h a s) (jumpReg h a s') :=
  chkReg_bothNext bad fun i => bothNext_next (good i)

/-- The same for an RR instruction whose tag alu_byte knows. -/
theorem aluRR_bothNext {op : BitVec 2} {h : Handler} {a b : Byte} (f : Byte → Byte → AluOut)
    (hf : ∀ x y, aluByte op x y = some (f x y))
    (bad : ∀ c, R (s.raise .registerIndexFault h.opcode c) (s'.raise .registerIndexFault h.opcode c))
    (good : ∀ i j, R ((s.applyAlu i (f (s.reg i) (s.reg j))).advance 3#8)
      ((s'.applyAlu i (f (s'.reg i) (s'.reg j))).advance 3#8)) :
    BothNext R (aluRR op h a b s) (aluRR op h a b s') := by
  refine chkReg_bothNext (bad a) fun i => chkReg_bothNext (bad b) fun j => ?_
  rw [hf, hf]
  exact bothNext_next (good i j)

/-- States that fetch alike in one run state step alike where the instruction fetched runs alike. -/
theorem step_bothNext (h : step s = .next t)
    (run : ∀ i, s.fetched = some i → BothNext R (exec i s) (exec i s'))
    (hrun : s'.run = s.run) (hfetch : s'.fetched = s.fetched)
    (undef : R (s.raise .decodeFault (s.memRead s.pc) 0#8) (s'.raise .decodeFault (s'.memRead s'.pc) 0#8)) :
    ∃ t', step s' = .next t' ∧ R t t' := by
  obtain ⟨hr, ⟨i, hi, he⟩ | ⟨hn, rfl⟩⟩ := step_cases h
  · rw [step_of_fetched (hrun.trans hr) (hfetch.trans hi)]
    exact (run i hi).next_right he
  · exact ⟨_, step_of_undefined (hrun.trans hr) (hfetch.trans hn), undef⟩

/-! ## The flags -/

/-- An instruction other than CMP leaves fl. -/
theorem Effect.fl_eq {i : Instr} (e : Effect s i t) (hi : i.handler ≠ .cmp) : t.fl = s.fl := by
  cases e with
  | cmp => exact absurd rfl hi
  | _ => rfl

/-- A byte at pc that is not the opcode of `h` is not fetched as an instruction of `h`. -/
theorem handler_ne_of_fetched {i : Instr} {h : Handler} (hi : s.fetched = some i) (hne : s.memRead s.pc ≠ h.opcode) :
    i.handler ≠ h :=
  fun e => hne (e ▸ (State.opcode_of_fetched hi).symm)

theorem fl_eq_of_step (h : step s = .next t) (hne : s.memRead s.pc ≠ Handler.cmp.opcode) :
    t.fl = s.fl := by
  obtain ⟨-, ⟨i, hi, he⟩ | ⟨-, rfl⟩⟩ := step_cases h
  · exact (effect_of_exec he).fl_eq (handler_ne_of_fetched hi hne)
  · rfl

/-- An instruction other than CMP carries fl through and reads none of it; a branch reads bit 0. -/
theorem exec_setFl (i : Instr) (f : Byte) (hcmp : i.handler ≠ .cmp)
    (hbit : i.handler = .jeq ∨ i.handler = .jne → (s.setFl f).flE = s.flE) :
    BothNext (fun t t' => t' = t.setFl f) (exec i s) (exec i (s.setFl f)) := by
  unfold exec
  cases i with
  | prn | ldi | push | pop | call => exact chkReg_bothNext rfl fun _ => bothNext_next rfl
  | mul => exact aluRR_bothNext _ aluByte_mul (fun _ => rfl) fun _ _ => rfl
  | add => exact aluRR_bothNext _ aluByte_add (fun _ => rfl) fun _ _ => rfl
  | cmp => exact absurd rfl hcmp
  | ret | hlt => exact bothNext_next rfl
  | jmp => exact jumpReg_bothNext rfl fun _ => rfl
  | jeq =>
    exact ite_bothNext (by rw [hbit (.inl rfl)]) (jumpReg_bothNext rfl fun _ => rfl) (bothNext_next rfl)
  | jne =>
    exact ite_bothNext (by rw [hbit (.inr rfl)]) (jumpReg_bothNext rfl fun _ => rfl) (bothNext_next rfl)

/-- A CMP that does not fault overwrites whatever fl held. -/
theorem exec_cmp_setFl (a b f : Byte) :
    BothNext (fun t t' => t.run ≠ .faulted → t' = t) (exec (.cmp a b) s) (exec (.cmp a b) (s.setFl f)) :=
  aluRR_bothNext _ aluByte_cmp (fun _ => absurd rfl) fun _ _ _ => rfl

theorem step_setFl_of_not_cmp (f : Byte) (h : step s = .next t)
    (hne : s.memRead s.pc ≠ Handler.cmp.opcode)
    (hbit : s.memRead s.pc = Handler.jeq.opcode ∨ s.memRead s.pc = Handler.jne.opcode → (s.setFl f).flE = s.flE) :
    step (s.setFl f) = .next (t.setFl f) := by
  have run : ∀ i, s.fetched = some i → BothNext (fun t t' => t' = t.setFl f) (exec i s) (exec i (s.setFl f)) := by
    intro i hi
    refine exec_setFl i f (handler_ne_of_fetched hi hne) fun hb => hbit ?_
    rw [← State.opcode_of_fetched hi]
    exact hb.imp (congrArg _) (congrArg _)
  obtain ⟨_, h', rfl⟩ := step_bothNext h run rfl rfl rfl
  exact h'

theorem step_setFl_of_cmp (f : Byte) (h : step s = .next t) (hc : s.memRead s.pc = Handler.cmp.opcode)
    (ht : t.run ≠ .faulted) : step (s.setFl f) = .next t := by
  have hi := fetched_of_opcode .cmp hc
  have run : ∀ i, s.fetched = some i →
      BothNext (fun t t' => t.run ≠ .faulted → t' = t) (exec i s) (exec i (s.setFl f)) := by
    intro i hi'
    cases hi.symm.trans hi'
    exact exec_cmp_setFl _ _ f
  obtain ⟨t', h', e⟩ := step_bothNext h run rfl rfl (absurd rfl)
  rw [h', e ht]

/-! ## The output stream -/

/-- The states differ in the output stream at most. -/
def SameButOutput (s t : State) : Prop := { t with output := [] } = { s with output := [] }

/-- An instruction leaves the output, or is PRN of a register and appends it. -/
theorem Effect.output_cases {i : Instr} (e : Effect s i t) :
    t.output = s.output ∨ ∃ a k, i = .prn a ∧ NamesReg a k ∧ t.output = s.output ++ [s.reg k] := by
  cases e with
  | prn a k ha => exact .inr ⟨a, k, rfl, ha, rfl⟩
  | _ => exact .inl rfl

theorem output_cases_of_step (h : step s = .next t) :
    t.output = s.output ∨
    (s.memRead s.pc = Handler.prn.opcode ∧
      ∃ k, NamesReg (s.memRead (s.pc + 1#8)) k ∧ t.output = s.output ++ [s.reg k]) := by
  obtain ⟨-, ⟨i, hi, he⟩ | ⟨-, rfl⟩⟩ := step_cases h
  · obtain ho | ⟨a, k, rfl, ha, ho⟩ := (effect_of_exec he).output_cases
    · exact .inl ho
    · have hshape := Instr.prn.inj (fetched_shape hi)
      exact .inr ⟨(State.opcode_of_fetched hi).symm, k, hshape ▸ ha, ho⟩
  · exact .inl rfl

/-- No instruction reads the output. -/
theorem exec_sameButOutput (i : Instr) (o : List Byte) :
    BothNext SameButOutput (exec i s) (exec i { s with output := o }) := by
  unfold exec
  cases i with
  | prn | ldi | push | pop | call => exact chkReg_bothNext rfl fun _ => bothNext_next rfl
  | mul => exact aluRR_bothNext _ aluByte_mul (fun _ => rfl) fun _ _ => rfl
  | add => exact aluRR_bothNext _ aluByte_add (fun _ => rfl) fun _ _ => rfl
  | cmp => exact aluRR_bothNext _ aluByte_cmp (fun _ => rfl) fun _ _ => rfl
  | ret | hlt => exact bothNext_next rfl
  | jmp => exact jumpReg_bothNext rfl fun _ => rfl
  | jeq | jne => exact ite_bothNext .rfl (jumpReg_bothNext rfl fun _ => rfl) (bothNext_next rfl)

/-! ## The stack pointer -/

theorem regsKeptBut_spDec (s : State) : RegsKeptBut [7] s s.spDec := fun k hk => by
  rw [State.reg_spDec, if_neg (List.ne_of_not_mem_cons hk)]

theorem regsKeptBut_spInc (s : State) : RegsKeptBut [7] s s.spInc := fun k hk => by
  rw [State.reg_spInc, if_neg (List.ne_of_not_mem_cons hk)]

theorem toNat_sp_spDec (s : State) : s.spDec.sp.toNat = (s.sp.toNat + 255) % 256 := by
  rw [State.sp_spDec, BitVec.toNat_sub, Nat.add_comm]
  rfl

theorem toNat_sp_spInc (s : State) : s.spInc.sp.toNat = (s.sp.toNat + 1) % 256 := by
  rw [State.sp_spInc, BitVec.toNat_add]
  rfl

end Sys2Proof.Machine

/-! ## The obligations -/

namespace Sys2Proof.Machine

/-- Settles O30: a branch's opcode byte is the only one whose step depends on fl, and CMP's the only one that changes it. -/
theorem flagsAreWrittenByCmpAndReadByBranches : Obligations.FlagsAreWrittenByCmpAndReadByBranches :=
  ⟨fun _ _ h hne => fl_eq_of_step h hne,
   fun _ _ f h hne hbit => step_setFl_of_not_cmp f h hne hbit,
   fun _ _ f h hc ht => step_setFl_of_cmp f h hc ht⟩

/-- Settles O31: what an instruction does to the output, and two runs that differ in the output alone. -/
theorem outputGrowsByPrnOnly : Obligations.OutputGrowsByPrnOnly :=
  ⟨rfl,
   fun _ _ h => output_cases_of_step h,
   fun _ _ o h => step_bothNext h (fun i _ => exec_sameButOutput i o) rfl rfl rfl⟩

/-- Settles O35: subtraction and addition of bytes are modulo 256, and only register 7 is written. -/
theorem stackPointerWraps : Obligations.StackPointerWraps := fun s =>
  ⟨toNat_sp_spDec s, toNat_sp_spInc s, State.sp_eq_reg _, State.sp_eq_reg _,
   regsKeptBut_spDec s, regsKeptBut_spInc s, ⟨rfl, rfl⟩, ⟨rfl, rfl⟩⟩

/-- Settles O41: every piece of state read off the reset state. -/
theorem resetGivesTheListedValues : Obligations.ResetGivesTheListedValues :=
  ⟨fun x => Memory.read_nil x.toNat, by decide, rfl, rfl, rfl, rfl, rfl, rfl⟩

end Sys2Proof.Machine
end

section
/-! PROOFS. The encoding: the opcode map and its complement, and the run loop read off the byte at pc
(spec/30_encoding.md). -/

namespace Sys2Proof

/-! ## The opcode map -/

theorem mem_handlers (h : Handler) : h ∈ handlers := by
  cases h <;> decide

/-- The byte values dispatch knows are the opcodes of rule R74's table, each once. -/
theorem definedBytes_perm_opcodes :
    ((List.range 256).filter fun n => (dispatch (BitVec.ofNat 8 n)).isSome).Perm (handlers.map (·.opcode.toNat)) := by
  refine (List.perm_ext_iff_of_nodup (List.nodup_range.filter _) (by decide)).2 fun n => ?_
  simp only [List.mem_filter, List.mem_range, List.mem_map, Option.isSome_iff_exists, dispatch_eq_some_iff]
  constructor
  · rintro ⟨hn, h, e⟩
    exact ⟨h, mem_handlers h, by rw [e, BitVec.toNat_ofNat, Nat.mod_eq_of_lt hn]⟩
  · rintro ⟨h, -, rfl⟩
    exact ⟨h.opcode.isLt, h, by simp⟩

/-- The other byte values are 256 - 13. -/
theorem length_undefinedBytes :
    ((List.range 256).filter fun n => (dispatch (BitVec.ofNat 8 n)).isNone).length = 243 := by
  have hsplit := List.length_eq_length_filter_add (l := List.range 256) fun n => (dispatch (BitVec.ofNat 8 n)).isSome
  have hdefined : (handlers.map (·.opcode.toNat)).length = 13 := rfl
  rw [definedBytes_perm_opcodes.length_eq, hdefined, List.length_range] at hsplit
  simp only [Option.not_isSome] at hsplit
  omega

end Sys2Proof

namespace Sys2Proof.Machine

/-! ## The run loop, by the byte at pc -/

theorem step_of_hlt_byte {s : State} (hr : s.run = .running) (hic : s.memRead s.pc = Handler.hlt.opcode) :
    step s = .next s.halt :=
  step_of_fetched hr (fetched_of_opcode .hlt hic)

theorem step_of_undefined_byte {s : State} (hr : s.run = .running) (hic : dispatch (s.memRead s.pc) = none) :
    step s = .next (faultedState s .decodeFault (s.memRead s.pc) 0) :=
  step_of_undefined hr (s.fetched_eq_none_iff.2 hic)

theorem fetched_of_decode {s : State} {i : Instr} {rest : List Byte} (hd : decode s.window = .instr i rest) :
    s.fetched = some i := by
  rw [State.fetched, hd, Decoded.instr?]

theorem step_ne_next_of_not_running {s : State} (hr : s.run ≠ .running) (t : State) : step s ≠ .next t :=
  fun h => hr (step_cases h).1

end Sys2Proof.Machine

/-! ## The obligations -/

namespace Sys2Proof.Machine

/-- Settles O15: the table is read off the definitions; dispatch finds an opcode's handler because no two share one. -/
theorem dispatchIsTheOpcodeMap : Obligations.DispatchIsTheOpcodeMap :=
  ⟨by decide, dispatch_eq_some_iff⟩

/-- Settles O16: the undefined bytes are counted as those left over by the 13 opcodes. -/
theorem undefinedOpcodeFaults : Obligations.UndefinedOpcodeFaults :=
  ⟨length_undefinedBytes, by decide, fun _ => step_of_undefined_byte⟩

/-- Settles O20: one rule of the step per branch of the loop. -/
theorem stepFollowsTheRunLoop : Obligations.StepFollowsTheRunLoop := fun _ =>
  ⟨step_of_hlt_byte,
   step_of_undefined_byte,
   fun _ _ hr hd => step_of_fetched hr (fetched_of_decode hd),
   step_ne_next_of_not_running⟩

end Sys2Proof.Machine
end

section
/-! PROOFS. PRN and LDI (spec/40_output_load.md): the meaning of each where the operand names a register and where it
does not, and the frame of a register write. -/

namespace Sys2Proof.Machine

/-! ## The frame of a register write, and pc after an advance -/

theorem regsKeptBut_setReg (s : State) (i : Fin 8) (v : Byte) : RegsKeptBut [i] s (s.setReg i v) := fun k hk => by
  rw [State.reg_setReg, if_neg (List.ne_of_not_mem_cons hk)]

theorem toNat_pc_advance (s : State) (n : Byte) : (s.advance n).pc.toNat = (s.pc.toNat + n.toNat) % 256 :=
  BitVec.toNat_add s.pc n

/-! ## The two meanings, by the operand byte -/

theorem exec_prn_eq (a : Byte) (s : State) :
    exec (.prn a) s = chkReg .prn a s fun i => .next ((s.emit (s.reg i)).advance 2#8) := rfl

theorem exec_prn_of_names {a : Byte} {i : Fin 8} (s : State) (ha : NamesReg a i) :
    exec (.prn a) s = .next ((s.emit (s.reg i)).advance 2#8) := by
  rw [exec_prn_eq, chkReg_of_names _ _ _ _ i ha]

theorem exec_prn_of_ge {a : Byte} (s : State) (ha : 8 ≤ a.toNat) :
    exec (.prn a) s = .next (faultedState s .registerIndexFault Handler.prn.opcode a) := by
  rw [exec_prn_eq, chkReg_of_ge _ _ _ _ ha, State.raise_eq]

theorem exec_ldi_eq (a imm : Byte) (s : State) :
    exec (.ldi a imm) s = chkReg .ldi a s fun i => .next ((s.setReg i imm).advance 3#8) := rfl

theorem exec_ldi_of_names {a : Byte} {i : Fin 8} (imm : Byte) (s : State) (ha : NamesReg a i) :
    exec (.ldi a imm) s = .next ((s.setReg i imm).advance 3#8) := by
  rw [exec_ldi_eq, chkReg_of_names _ _ _ _ i ha]

theorem exec_ldi_of_ge {a : Byte} (imm : Byte) (s : State) (ha : 8 ≤ a.toNat) :
    exec (.ldi a imm) s = .next (faultedState s .registerIndexFault Handler.ldi.opcode a) := by
  rw [exec_ldi_eq, chkReg_of_ge _ _ _ _ ha, State.raise_eq]

/-! ## The obligations -/

/-- Settles O1: the next state is `emit` then `advance`, which write the output stream and pc alone. -/
theorem prnEmitsRegister : Obligations.PrnEmitsRegister := by
  refine fun s a => ⟨rfl, fun i ha => ⟨_, exec_prn_of_names s ha, ?_⟩, exec_prn_of_ge s⟩
  have hpc := toNat_pc_advance (s.emit (s.reg i)) 2#8
  exact ⟨rfl, hpc, fun _ _ => rfl, rfl, fun _ => rfl, rfl, rfl⟩

/-- Settles O2: the next state is `setReg` then `advance`, which write one register and pc alone. -/
theorem ldiWritesImmediate : Obligations.LdiWritesImmediate := by
  refine fun s a imm => ⟨rfl, fun i ha => ⟨_, exec_ldi_of_names imm s ha, ?_⟩, exec_ldi_of_ge imm s⟩
  have hreg := State.reg_setReg_same s i imm
  have hpc := toNat_pc_advance (s.setReg i imm) 3#8
  have hkept := regsKeptBut_setReg s i imm
  exact ⟨hreg, hpc, hkept, rfl, fun _ => rfl, ⟨rfl, rfl⟩, rfl⟩

end Sys2Proof.Machine
end

section
/-! PROOFS. The ALU (spec/41_alu.md): what an RR instruction does, by its operand bytes and by what alu_byte answers for
its tag; MUL, ADD and CMP are that rule at their tags, and AluOpFault is that rule at the tag 11. -/

namespace Sys2Proof.Machine

/-! ## The flags value, by the unsigned order -/

theorem cmpFlags_of_eq {a b : Byte} (h : a = b) : cmpFlags a b = flagE := if_pos h

theorem cmpFlags_of_lt {a b : Byte} (h : a.toNat < b.toNat) : cmpFlags a b = flagL := by
  have hne : a ≠ b := by rintro rfl; omega
  rw [cmpFlags, if_neg hne, if_pos h]

theorem cmpFlags_of_gt {a b : Byte} (h : b.toNat < a.toNat) : cmpFlags a b = flagG := by
  have hne : a ≠ b := by rintro rfl; omega
  rw [cmpFlags, if_neg hne, if_neg (by omega)]

/-! ## The RR instruction, by its operand bytes and its tag -/

theorem aluByte_tag11 (a b : Byte) : aluByte 0b11#2 a b = none := rfl

section
variable (op : BitVec 2) (h : Handler) {a b : Byte} {i j : Fin 8} (s : State)

theorem aluRR_of_some {out : AluOut} (ha : NamesReg a i) (hb : NamesReg b j)
    (hout : aluByte op (s.reg i) (s.reg j) = some out) :
    aluRR op h a b s = .next ((s.applyAlu i out).advance 3#8) := by
  rw [aluRR, chkReg_of_names _ _ _ _ i ha, chkReg_of_names _ _ _ _ j hb, hout]

theorem aluRR_of_none (ha : NamesReg a i) (hb : NamesReg b j) (hout : aluByte op (s.reg i) (s.reg j) = none) :
    aluRR op h a b s = .next (faultedState s .aluOpFault h.opcode 0) := by
  rw [aluRR, chkReg_of_names _ _ _ _ i ha, chkReg_of_names _ _ _ _ j hb, hout]
  rfl

theorem aluRR_of_ge_left (ha : 8 ≤ a.toNat) :
    aluRR op h a b s = .next (faultedState s .registerIndexFault h.opcode a) :=
  chkReg_of_ge h a s _ ha

theorem aluRR_of_ge_right (ha : a.toNat < 8) (hb : 8 ≤ b.toNat) :
    aluRR op h a b s = .next (faultedState s .registerIndexFault h.opcode b) :=
  (chkReg_of_names h a s _ ⟨a.toNat, ha⟩ rfl).trans (chkReg_of_ge h b s _ hb)

/-- Where alu_byte drives a result, x[A] and pc are written and nothing else: the common part of rules R104 and R105. -/
theorem aluRR_writes_result {v : Byte} (ha : NamesReg a i) (hb : NamesReg b j)
    (hout : aluByte op (s.reg i) (s.reg j) = some (.res v)) :
    ∃ t, aluRR op h a b s = .next t ∧ t.reg i = v ∧ t.pc.toNat = (s.pc.toNat + 3) % 256 ∧
      RegsKeptBut [i] s t ∧ t.fl = s.fl ∧ MemKept s t ∧ ControlKept s t ∧ t.output = s.output :=
  ⟨_, aluRR_of_some op h s ha hb hout, State.reg_setReg_same s i v, toNat_pc_advance (s.setReg i v) 3#8,
    regsKeptBut_setReg s i v, rfl, fun _ => rfl, ⟨rfl, rfl⟩, rfl⟩

theorem aluRR_tag11 (ha : NamesReg a i) (hb : NamesReg b j) :
    aluRR 0b11#2 h a b s = .next (faultedState s .aluOpFault h.opcode 0) :=
  aluRR_of_none _ h s ha hb (aluByte_tag11 _ _)

end

/-! ## The causes a step can record -/

theorem aluOp_ne_tag11 (h : Handler) : h.aluOp ≠ some 0b11#2 := by
  cases h <;> decide

/-- The only fault an instruction takes is that of a bad operand. -/
theorem Effect.cause_of_faulted {s t : State} {i : Instr} (e : Effect s i t) (hs : s.run = .running)
    (ht : t.run = .faulted) : t.fault.cause = FaultCause.registerIndexFault.code := by
  cases e with
  | badOperand => rfl
  | hlt => cases ht
  | _ => cases hs.symm.trans ht

theorem cause_of_faulting_step {s t : State} (h : step s = .next t) (ht : t.run = .faulted) :
    t.fault.cause = FaultCause.registerIndexFault.code ∨ t.fault.cause = FaultCause.decodeFault.code := by
  obtain ⟨hs, ⟨i, -, he⟩ | ⟨-, rfl⟩⟩ := step_cases h
  · exact .inl ((effect_of_exec he).cause_of_faulted hs ht)
  · exact .inr rfl

/-! ## The obligations -/

/-- Settles O29: no handler's tag is 11, and a faulting step records one of the other two causes. -/
theorem aluOpFaultIsUnreachable : Obligations.AluOpFaultIsUnreachable := by
  refine ⟨aluOp_ne_tag11, fun s t h ht => ?_, fun s h _ _ _ _ ha hb => aluRR_tag11 h s ha hb⟩
  obtain e | e := cause_of_faulting_step h ht
  · rw [e]; decide
  · rw [e]; decide

/-- Settles O3: the result alu_byte drives for the tag 01 is the product of bytes, which is modulo 256. -/
theorem mulWritesProductModulo256 : Obligations.MulWritesProductModulo256 := by
  refine fun s a b => ⟨rfl, fun i j ha hb => ?_, aluRR_of_ge_left aluOpMul .mul s, aluRR_of_ge_right aluOpMul .mul s⟩
  obtain ⟨t, ht, hreg, hkept⟩ := aluRR_writes_result aluOpMul .mul s ha hb (aluByte_mul _ _)
  exact ⟨t, ht, hreg ▸ BitVec.toNat_mul _ _, hkept⟩

/-- Settles O4: the result alu_byte drives for the tag 00 is the sum of bytes, which is modulo 256. -/
theorem addWritesSumModulo256 : Obligations.AddWritesSumModulo256 := by
  refine fun s a b => ⟨rfl, fun i j ha hb => ?_, aluRR_of_ge_left aluOpAdd .add s, aluRR_of_ge_right aluOpAdd .add s⟩
  obtain ⟨t, ht, hreg, hkept⟩ := aluRR_writes_result aluOpAdd .add s ha hb (aluByte_add _ _)
  exact ⟨t, ht, hreg ▸ BitVec.toNat_add _ _, hkept⟩

/-- Settles O5: the next state is `setFl` of the flags value, then `advance`, which write fl and pc alone. -/
theorem cmpWritesExactlyOneFlag : Obligations.CmpWritesExactlyOneFlag := by
  refine fun s a b => ⟨rfl, fun i j ha hb => ?_, aluRR_of_ge_left aluOpCmp .cmp s, aluRR_of_ge_right aluOpCmp .cmp s⟩
  refine ⟨_, aluRR_of_some aluOpCmp .cmp s ha hb (aluByte_cmp _ _), fun heq => cmpFlags_of_eq (BitVec.eq_of_toNat_eq heq),
    cmpFlags_of_lt, cmpFlags_of_gt, ?_⟩
  have hpc := toNat_pc_advance (s.setFl (cmpFlags (s.reg i) (s.reg j))) 3#8
  exact ⟨hpc, fun _ _ => rfl, fun _ => rfl, ⟨rfl, rfl⟩, rfl⟩

/-- Settles O28: one equation of alu_byte per tag, read as numbers. -/
theorem aluByteComputes : Obligations.AluByteComputes :=
  ⟨fun a b =>
    ⟨⟨a + b, aluByte_add a b, BitVec.toNat_add a b⟩,
     ⟨a * b, aluByte_mul a b, BitVec.toNat_mul a b⟩,
     ⟨cmpFlags a b, aluByte_cmp a b, cmpFlags_of_eq, cmpFlags_of_lt, cmpFlags_of_gt⟩⟩,
   fun s h _ _ _ _ ha hb => aluRR_tag11 h s ha hb⟩

end Sys2Proof.Machine
end

section
/-! PROOFS. PUSH and POP (spec/42_stack.md): the meaning of each by its operand byte, the frame of a memory write, and the
registers after the two writes of POP in their order. -/

namespace Sys2Proof.Machine

/-! ## Frames -/

theorem memKeptBut_memWrite (s : State) (d v : Byte) : MemKeptBut d s (s.memWrite d v) := fun x hx => by
  rw [State.memRead_memWrite, if_neg hx]

/-- Of two writes in a row, a register that neither writes is as before. -/
theorem RegsKeptBut.trans {l m : List (Fin 8)} {s t u : State} (hst : RegsKeptBut l s t) (htu : RegsKeptBut m t u) :
    RegsKeptBut (l ++ m) s u := fun k hk => by
  have hl : k ∉ l := fun h => hk (List.mem_append_left m h)
  have hm : k ∉ m := fun h => hk (List.mem_append_right l h)
  rw [htu k hm, hst k hl]

/-! ## PUSH -/

theorem exec_push_eq (a : Byte) (s : State) :
    exec (.push a) s =
      chkReg .push a s fun i => .next ((s.spDec.memWrite s.spDec.sp (s.spDec.reg i)).advance 2#8) := rfl

theorem exec_push_of_names {a : Byte} {i : Fin 8} (s : State) (ha : NamesReg a i) :
    exec (.push a) s = .next ((s.spDec.memWrite s.spDec.sp (s.spDec.reg i)).advance 2#8) := by
  rw [exec_push_eq, chkReg_of_names _ _ _ _ i ha]

theorem exec_push_of_ge {a : Byte} (s : State) (ha : 8 ≤ a.toNat) :
    exec (.push a) s = .next (faultedState s .registerIndexFault Handler.push.opcode a) := by
  rw [exec_push_eq, chkReg_of_ge _ _ _ _ ha, State.raise_eq]

/-- What PUSH stores: the registers as the decrement left them. -/
theorem reg_spDec_eq_sp (s : State) (i : Fin 8) : s.spDec.reg i = if i = 7 then s.spDec.sp else s.reg i := by
  rw [State.reg_spDec, State.sp_spDec]

/-! ## POP -/

theorem exec_pop_eq (a : Byte) (s : State) :
    exec (.pop a) s = chkReg .pop a s fun i => .next ((s.setReg i (s.memRead s.sp)).spInc.advance 2#8) := rfl

theorem exec_pop_of_names {a : Byte} {i : Fin 8} (s : State) (ha : NamesReg a i) :
    exec (.pop a) s = .next ((s.setReg i (s.memRead s.sp)).spInc.advance 2#8) := by
  rw [exec_pop_eq, chkReg_of_names _ _ _ _ i ha]

theorem exec_pop_of_ge {a : Byte} (s : State) (ha : 8 ≤ a.toNat) :
    exec (.pop a) s = .next (faultedState s .registerIndexFault Handler.pop.opcode a) := by
  rw [exec_pop_eq, chkReg_of_ge _ _ _ _ ha, State.raise_eq]

/-- A register other than the stack pointer keeps the loaded byte through the increment. -/
theorem reg_spInc_setReg_same (s : State) {i : Fin 8} (v : Byte) (hi : i ≠ 7) : (s.setReg i v).spInc.reg i = v := by
  rw [State.reg_spInc, if_neg hi, State.reg_setReg_same]

theorem toNat_sp_spInc_setReg (s : State) (i : Fin 8) (v : Byte) :
    (s.setReg i v).spInc.sp.toNat = ((if i = 7 then v else s.sp).toNat + 1) % 256 := by
  rw [toNat_sp_spInc, State.sp_setReg]

/-! ## The obligations -/

/-- Settles O6: the next state is `spDec`, `memWrite` at the decremented SP, then `advance`; what is stored is read after
`spDec`. -/
theorem pushStoresBelowStackPointer : Obligations.PushStoresBelowStackPointer := by
  refine fun s a => ⟨rfl, fun i ha => ⟨_, exec_push_of_names s ha, ?_⟩, exec_push_of_ge s⟩
  have hstored := (State.memRead_memWrite_same s.spDec s.spDec.sp (s.spDec.reg i)).trans (reg_spDec_eq_sp s i)
  have hmem := memKeptBut_memWrite s.spDec s.spDec.sp (s.spDec.reg i)
  have hpc := toNat_pc_advance (s.spDec.memWrite s.spDec.sp (s.spDec.reg i)) 2#8
  exact ⟨toNat_sp_spDec s, hstored, hmem, hpc, regsKeptBut_spDec s, rfl, ⟨rfl, rfl⟩, rfl⟩

/-- Settles O7: the next state is `setReg` of the loaded byte, `spInc`, then `advance`; `spInc` adds 1 to what `setReg`
left in SP, which is the loaded byte for R7. -/
theorem popLoadsFromStackPointer : Obligations.PopLoadsFromStackPointer := by
  refine fun s a => ⟨rfl, fun i ha => ⟨_, exec_pop_of_names s ha, ?_⟩, exec_pop_of_ge s⟩
  have hsp := toNat_sp_spInc_setReg s i (s.memRead s.sp)
  have hpc := toNat_pc_advance (s.setReg i (s.memRead s.sp)).spInc 2#8
  have hkept := (regsKeptBut_setReg s i (s.memRead s.sp)).trans (regsKeptBut_spInc _)
  refine ⟨fun hi => ⟨reg_spInc_setReg_same s _ hi, ?_⟩, fun hi => ?_, hpc, hkept, rfl, fun _ => rfl, ⟨rfl, rfl⟩, rfl⟩
  · rwa [if_neg hi] at hsp
  · rwa [if_pos hi] at hsp

end Sys2Proof.Machine
end

section
/-! PROOFS. CALL, RET and the jumps, and HLT (spec/43_control.md): the jump through a register by its operand byte, the
branches by E, and CALL's three writes in their order. -/

namespace Sys2Proof.Machine

/-! ## The jump through a register -/

section
variable (h : Handler) {a : Byte} {i : Fin 8} (s : State)

theorem jumpReg_of_names (ha : NamesReg a i) : jumpReg h a s = .next (s.setPc (s.reg i)) :=
  chkReg_of_names h a s _ i ha

theorem jumpReg_of_ge (ha : 8 ≤ a.toNat) :
    jumpReg h a s = .next (faultedState s .registerIndexFault h.opcode a) :=
  chkReg_of_ge h a s _ ha

end

/-! ## The branches, by E -/

section
variable (a : Byte) {s : State}

theorem exec_jeq_of_set (hE : s.flE = true) : exec (.jeq a) s = jumpReg .jeq a s := if_pos hE

theorem exec_jeq_of_clear (hE : s.flE = false) : exec (.jeq a) s = .next (s.advance 2#8) :=
  if_neg (Bool.eq_false_iff.1 hE)

theorem exec_jne_of_clear (hE : s.flE = false) : exec (.jne a) s = jumpReg .jne a s := if_pos hE

theorem exec_jne_of_set (hE : s.flE = true) : exec (.jne a) s = .next (s.advance 2#8) :=
  if_neg (ne_false_of_eq_true hE)

end

/-! ## CALL -/

theorem exec_call_eq (a : Byte) (s : State) :
    exec (.call a) s =
      chkReg .call a s fun i => .next ((s.spDec.memWrite s.spDec.sp (s.pc + 2#8)).setPc (s.spDec.reg i)) := rfl

theorem exec_call_of_names {a : Byte} {i : Fin 8} (s : State) (ha : NamesReg a i) :
    exec (.call a) s = .next ((s.spDec.memWrite s.spDec.sp (s.pc + 2#8)).setPc (s.spDec.reg i)) := by
  rw [exec_call_eq, chkReg_of_names _ _ _ _ i ha]

theorem exec_call_of_ge {a : Byte} (s : State) (ha : 8 ≤ a.toNat) :
    exec (.call a) s = .next (faultedState s .registerIndexFault Handler.call.opcode a) := by
  rw [exec_call_eq, chkReg_of_ge _ _ _ _ ha, State.raise_eq]

/-! ## The obligations -/

/-- Settles O8: the next state is `spDec`, `memWrite` of the return address at the decremented SP, then `setPc`; the target
is read after `spDec`. -/
theorem callPushesReturnAddressAndJumps : Obligations.CallPushesReturnAddressAndJumps := by
  refine fun s a => ⟨rfl, fun i ha => ⟨_, exec_call_of_names s ha, ?_⟩, exec_call_of_ge s⟩
  have hstored := State.memRead_memWrite_same s.spDec s.spDec.sp (s.pc + 2#8)
  have hreturn := (congrArg BitVec.toNat hstored).trans (toNat_pc_advance s 2#8)
  have hmem := memKeptBut_memWrite s.spDec s.spDec.sp (s.pc + 2#8)
  have htarget := reg_spDec_eq_sp s i
  exact ⟨toNat_sp_spDec s, hreturn, hmem, htarget, regsKeptBut_spDec s, rfl, ⟨rfl, rfl⟩, rfl⟩

/-- Settles O9: the next state is `setPc` of the byte at SP, then `spInc`, which write pc and R7 alone. -/
theorem retPopsProgramCounter : Obligations.RetPopsProgramCounter := by
  refine fun s => ⟨rfl, _, exec_ret_eq s, ?_⟩
  have hsp := toNat_sp_spInc (s.setPc (s.memRead s.sp))
  have hkept := regsKeptBut_spInc (s.setPc (s.memRead s.sp))
  exact ⟨rfl, hsp, hkept, rfl, fun _ => rfl, ⟨rfl, rfl⟩, rfl⟩

/-- Settles O10: JMP is the jump through a register. -/
theorem jmpTakesRegister : Obligations.JmpTakesRegister := fun s _ =>
  ⟨rfl, fun _ => jumpReg_of_names .jmp s, jumpReg_of_ge .jmp s⟩

/-- Settles O11: with E set JEQ is the jump through a register, with E clear it is `advance`, for every operand byte. -/
theorem jeqTakesRegisterIfEqual : Obligations.JeqTakesRegisterIfEqual := fun s a =>
  ⟨rfl,
   fun hE _ ha => (exec_jeq_of_set a hE).trans (jumpReg_of_names .jeq s ha),
   fun hE ha => (exec_jeq_of_set a hE).trans (jumpReg_of_ge .jeq s ha),
   fun hE => ⟨_, exec_jeq_of_clear a hE, toNat_pc_advance s 2#8, rfl⟩⟩

/-- Settles O12: with E clear JNE is the jump through a register, with E set it is `advance`, for every operand byte. -/
theorem jneTakesRegisterIfNotEqual : Obligations.JneTakesRegisterIfNotEqual := fun s a =>
  ⟨rfl,
   fun hE _ ha => (exec_jne_of_clear a hE).trans (jumpReg_of_names .jne s ha),
   fun hE ha => (exec_jne_of_clear a hE).trans (jumpReg_of_ge .jne s ha),
   fun hE => ⟨_, exec_jne_of_set a hE, toNat_pc_advance s 2#8, rfl⟩⟩

/-- Settles O13: the byte 0x01 is fetched as HLT, which writes run alone; a step answers a next state only from RUNNING. -/
theorem hltEndsTheRun : Obligations.HltEndsTheRun := by
  refine ⟨rfl, exec_hlt_eq, fun s hr hic => ⟨step_of_hlt_byte hr hic, ?_⟩⟩
  have hhalted : s.halt.run ≠ .running := by rw [State.halt_run]; decide
  exact step_ne_next_of_not_running hhalted

end Sys2Proof.Machine
end

section
/-! PROOFS. The faults (spec/60_exceptions.md): what an instruction does where an operand in use is bad and where none is,
read off the first such operand, and from these every way a step can fault. -/

namespace Sys2Proof.Machine

variable {i : Instr} {s t : State}

/-! ## The first bad operand -/

theorem ge_of_firstBadOperand {b : Byte} (h : firstBadOperand i s = some b) : 8 ≤ b.toNat := by
  have hinvalid := List.find?_some h
  simpa [validIndex] using hinvalid

/-- Where none is found, every operand in use names a register. -/
theorem lt_of_firstBadOperand_none {b : Byte} (h : firstBadOperand i s = none) (hb : b ∈ usedOperands i s) :
    b.toNat < 8 := by
  have hvalid := List.find?_eq_none.1 h b hb
  simpa [validIndex] using hvalid

theorem firstBadOperand_of_one {a c : Byte} (hu : usedOperands i s = [a]) (h : firstBadOperand i s = some c) :
    a = c ∧ 8 ≤ a.toNat := by
  have hc := List.mem_of_find?_eq_some h
  rw [hu, List.mem_singleton] at hc
  exact ⟨hc.symm, hc ▸ ge_of_firstBadOperand h⟩

/-- Of two operands the second is found only where the first names a register (rule R152: A before B). -/
theorem firstBadOperand_of_two {a b c : Byte} (hu : usedOperands i s = [a, b]) (h : firstBadOperand i s = some c) :
    (a = c ∧ 8 ≤ a.toNat) ∨ (b = c ∧ a.toNat < 8 ∧ 8 ≤ b.toNat) := by
  have hge := ge_of_firstBadOperand h
  rw [firstBadOperand, hu, List.find?_cons] at h
  split at h
  · cases h
    exact .inl ⟨rfl, hge⟩
  · next hvalid =>
    have hc := List.mem_singleton.1 (List.mem_of_find?_eq_some h)
    exact .inr ⟨hc.symm, by simpa [validIndex] using hvalid, hc ▸ hge⟩

theorem usedOperands_of_fallsThrough (h : fallsThrough i s = true) : usedOperands i s = [] := if_pos h

theorem usedOperands_of_not_fallsThrough (h : fallsThrough i s = false) : usedOperands i s = i.regOperands :=
  if_neg (Bool.eq_false_iff.1 h)

/-- A branch that falls through has no bad operand in use. -/
theorem not_fallsThrough_of_firstBadOperand {c : Byte} (hc : firstBadOperand i s = some c) :
    fallsThrough i s = false := by
  by_contra hf
  have hmem := List.mem_of_find?_eq_some hc
  rw [usedOperands_of_fallsThrough (by simpa using hf)] at hmem
  cases hmem

/-! ## The instruction, by its first bad operand -/

/-- The check of an instruction's one operand fails where that operand is bad. -/
theorem chkReg_of_firstBadOperand {a c : Byte} (h : Handler) (k : Fin 8 → Out) (hu : usedOperands i s = [a])
    (hc : firstBadOperand i s = some c) :
    chkReg h a s k = .next (faultedState s .registerIndexFault h.opcode c) := by
  obtain ⟨rfl, ha⟩ := firstBadOperand_of_one hu hc
  exact chkReg_of_ge h a s k ha

theorem jumpReg_of_firstBadOperand {a c : Byte} (h : Handler) (hu : usedOperands i s = [a])
    (hc : firstBadOperand i s = some c) :
    jumpReg h a s = .next (faultedState s .registerIndexFault h.opcode c) :=
  chkReg_of_firstBadOperand h _ hu hc

/-- An RR instruction faults on the first of its operands that is bad. -/
theorem aluRR_of_firstBadOperand {a b c : Byte} (op : BitVec 2) (h : Handler) (hu : usedOperands i s = [a, b])
    (hc : firstBadOperand i s = some c) :
    aluRR op h a b s = .next (faultedState s .registerIndexFault h.opcode c) := by
  obtain ⟨rfl, ha⟩ | ⟨rfl, ha, hb⟩ := firstBadOperand_of_two hu hc
  · exact aluRR_of_ge_left op h s ha
  · exact aluRR_of_ge_right op h s ha hb

/-- An instruction with a bad operand in use takes RegisterIndexFault on the first (rules R147, R152). -/
theorem exec_of_firstBadOperand {c : Byte} (hc : firstBadOperand i s = some c) :
    exec i s = .next (faultedState s .registerIndexFault i.handler.opcode c) := by
  have hf := not_fallsThrough_of_firstBadOperand hc
  have hu := usedOperands_of_not_fallsThrough hf
  unfold exec
  cases i with
  | prn | ldi | push | pop | call => exact chkReg_of_firstBadOperand _ _ hu hc
  | mul => exact aluRR_of_firstBadOperand aluOpMul .mul hu hc
  | add => exact aluRR_of_firstBadOperand aluOpAdd .add hu hc
  | cmp => exact aluRR_of_firstBadOperand aluOpCmp .cmp hu hc
  | jmp => exact jumpReg_of_firstBadOperand .jmp hu hc
  | jeq a =>
    have hE : s.flE = true := by simpa [fallsThrough] using hf
    exact (exec_jeq_of_set a hE).trans (jumpReg_of_firstBadOperand .jeq hu hc)
  | jne a => exact (exec_jne_of_clear a hf).trans (jumpReg_of_firstBadOperand .jne hu hc)
  | ret | hlt => cases hc

/-- Without a bad operand in use an instruction leaves the fault record, and only HLT writes run. -/
theorem Effect.control_of_firstBadOperand_none (e : Effect s i t) (hn : firstBadOperand i s = none) :
    t.fault = s.fault ∧ t.run = if i = .hlt then .halted else s.run := by
  cases e with
  | badOperand _ b used bad => exact absurd (lt_of_firstBadOperand_none hn used) (Nat.not_lt.2 bad)
  | _ => exact ⟨rfl, rfl⟩

/-! ## The step, by the checks of rule R152 -/

/-- The third check: the fault record holds the first bad operand. -/
theorem step_of_firstBadOperand {c : Byte} (hr : s.run = .running) (hi : s.fetched = some i)
    (hc : firstBadOperand i s = some c) :
    step s = .next (faultedState s .registerIndexFault (s.memRead s.pc) c) := by
  rw [step_of_fetched hr hi, exec_of_firstBadOperand hc, State.opcode_of_fetched hi]

/-- All checks passed: the step is the instruction's. -/
theorem step_of_firstBadOperand_none (hr : s.run = .running) (hi : s.fetched = some i)
    (hn : firstBadOperand i s = none) :
    ∃ t, step s = .next t ∧ exec i s = .next t ∧ t.fault = s.fault ∧ t.run = (if i = .hlt then .halted else .running) := by
  obtain ⟨t, ht, e⟩ := exec_effect i s
  exact ⟨t, (step_of_fetched hr hi).trans ht, ht, hr ▸ e.control_of_firstBadOperand_none hn⟩

/-- Every way a step can fault. -/
theorem faulting_step_cases (h : step s = .next t) (ht : t.run = .faulted) :
    (dispatch (s.memRead s.pc) = none ∧ t = faultedState s .decodeFault (s.memRead s.pc) 0) ∨
    (∃ i c, s.fetched = some i ∧ firstBadOperand i s = some c ∧
      t = faultedState s .registerIndexFault (s.memRead s.pc) c) := by
  obtain ⟨hr, ⟨i, hi, he⟩ | ⟨hn, rfl⟩⟩ := step_cases h
  · cases hc : firstBadOperand i s with
    | some c => exact .inr ⟨i, c, hi, hc, Host.Outcome.next.inj (h.symm.trans (step_of_firstBadOperand hr hi hc))⟩
    | none =>
      obtain ⟨-, hrun⟩ := (effect_of_exec he).control_of_firstBadOperand_none hc
      rw [ht, hr] at hrun
      split at hrun <;> cases hrun
  · exact .inl ⟨s.fetched_eq_none_iff.1 hn, rfl⟩

/-- A step faults exactly on an undefined opcode byte or a bad operand in use (rule R145). -/
theorem run_faulted_iff_of_step (h : step s = .next t) :
    t.run = .faulted ↔ dispatch (s.memRead s.pc) = none ∨ ∃ i b, s.fetched = some i ∧ firstBadOperand i s = some b := by
  obtain ⟨hr, -⟩ := step_cases h
  constructor
  · intro ht
    obtain ⟨hd, -⟩ | ⟨i, c, hi, hc, -⟩ := faulting_step_cases h ht
    · exact .inl hd
    · exact .inr ⟨i, c, hi, hc⟩
  · rintro (hd | ⟨i, b, hi, hb⟩)
    · cases h.symm.trans (step_of_undefined_byte hr hd)
      rfl
    · cases h.symm.trans (step_of_firstBadOperand hr hi hb)
      rfl

/-! ## The obligations -/

/-- Settles O25: each cause is read off the state its check leaves; no step takes another fault. -/
theorem faultsAreThoseOfTheTable : Obligations.FaultsAreThoseOfTheTable := by
  intro s t h
  obtain ⟨hr, -⟩ := step_cases h
  obtain ⟨-, hcause, -⟩ := aluOpFaultIsUnreachable
  refine ⟨run_faulted_iff_of_step h, fun hd => ?_, fun i b hi hb => ?_, hcause s t h⟩
  · cases h.symm.trans (step_of_undefined_byte hr hd)
    exact ⟨rfl, rfl⟩
  · cases h.symm.trans (step_of_firstBadOperand hr hi hb)
    exact ⟨rfl, rfl, ge_of_firstBadOperand hb⟩

/-- Settles O26: each of the two ways a step can fault leaves `faultedState`. -/
theorem faultIsPrecise : Obligations.FaultIsPrecise := by
  intro s t h ht
  obtain ⟨-, e⟩ | ⟨_, c, -, -, e⟩ := faulting_step_cases h ht
  · exact ⟨.decodeFault, 0, e⟩
  · exact ⟨.registerIndexFault, c, e⟩

/-- Settles O27: one rule of the step per check, in the order of rule R152. -/
theorem checksHappenInOrder : Obligations.ChecksHappenInOrder := fun _ hr =>
  ⟨step_of_hlt_byte hr,
   step_of_undefined_byte hr,
   fun _ _ => step_of_firstBadOperand hr,
   fun _ => step_of_firstBadOperand_none hr⟩

end Sys2Proof.Machine
end

section
/-! PROOFS. The launch (spec/70_reset_and_hazards.md): a load at each side of the size limit, and the first step from reset,
where every byte is an undefined opcode. -/

namespace Sys2Proof.Machine

/-! ## The load, by the size of the image -/

theorem load_of_le (s : State) {image : List Byte} (h : image.length ≤ Config.memSize) :
    load image s = .next (s.storeBytes Config.loadAddress image) := by
  rw [load, if_pos h]

theorem load_of_gt (s : State) {image : List Byte} (h : Config.memSize < image.length) :
    load image s = .refused .imageTooLarge := by
  rw [load, if_neg h.not_ge]

/-! ## The first step from reset -/

theorem State.memRead_reset (x : Byte) : State.reset.memRead x = 0x00 := Memory.read_nil x.toNat

/-- The byte at pc is 0x00, which is none of the 13 opcodes (rule R75). -/
theorem step_reset : step State.reset = .next (faultedState State.reset .decodeFault 0x00 0) := by
  have hic : State.reset.memRead State.reset.pc = 0x00 := State.memRead_reset _
  have hundef : dispatch (State.reset.memRead State.reset.pc) = none := by rw [hic]; decide
  rw [step_of_undefined_byte rfl hundef, hic]

end Sys2Proof.Machine

/-! ## The obligations -/

namespace Sys2Proof.Machine

/-- Settles O46: the load on either side of the size limit; what an empty one stores is nothing. -/
theorem oversizedImageIsRefused : Obligations.OversizedImageIsRefused :=
  ⟨fun _ h => load_of_gt State.reset h, load_of_le State.reset (Nat.zero_le _), step_reset⟩

end Sys2Proof.Machine
end

section
/-! PROOFS. The decoder against the encoder (spec/30_encoding.md): the encoder's bytes are a handler's opcode and the operand
bytes of its format, and the decoder accepts nothing else. -/

namespace Sys2Proof

variable {h : Handler} {bs rest : List Byte} {i : Instr}

/-! ## The encoding of an instruction, by its handler -/

/-- The operand bytes an instruction of this format holds. -/
def Format.operands (f : Format) (a b : Byte) : List Byte :=
  match f with
  | .n => []
  | .r => [a]
  | .ri => [a, b]
  | .rr => [a, b]

/-- The encoder's table (rule R83) and the opcode map (rule R74) agree. -/
theorem encode_instr (h : Handler) (a b : Byte) : encode (h.instr a b) = h.opcode :: h.format.operands a b := by
  cases h <;> rfl

theorem decode_encode (i : Instr) : ∀ rest : List Byte, decode (encode i ++ rest) = .instr i rest :=
  match i with
  | .prn a => Laws.RoundTrip.prn a
  | .ldi a imm => Laws.RoundTrip.ldi a imm
  | .mul a b => Laws.RoundTrip.mul a b
  | .add a b => Laws.RoundTrip.add a b
  | .cmp a b => Laws.RoundTrip.cmp a b
  | .push a => Laws.RoundTrip.push a
  | .pop a => Laws.RoundTrip.pop a
  | .call a => Laws.RoundTrip.call a
  | .ret => Laws.RoundTrip.ret
  | .jmp a => Laws.RoundTrip.jmp a
  | .jeq a => Laws.RoundTrip.jeq a
  | .jne a => Laws.RoundTrip.jne a
  | .hlt => Laws.RoundTrip.hlt

/-! ## What the decoder accepts -/

/-- Operands are read only where the bytes of the format stand. -/
theorem operands_of_decodeOperands (hd : decodeOperands h bs = .instr i rest) :
    ∃ a b, i = h.instr a b ∧ bs = h.format.operands a b ++ rest := by
  unfold decodeOperands at hd
  split at hd
  case h_1 hf => cases hd; exact ⟨0, 0, rfl, by rw [hf]; rfl⟩
  case h_2 a rest hf => cases hd; exact ⟨a, 0, rfl, by rw [hf]; rfl⟩
  case h_3 a b rest hf => cases hd; exact ⟨a, b, rfl, by rw [hf]; rfl⟩
  case h_4 a b rest hf => cases hd; exact ⟨a, b, rfl, by rw [hf]; rfl⟩
  all_goals cases hd

theorem eq_encode_of_decode {bytes : List Byte} (hd : decode bytes = .instr i rest) : bytes = encode i ++ rest := by
  cases bytes with
  | nil => cases hd
  | cons ic bs =>
    cases hic : dispatch ic with
    | none => rw [decode_of_undefined hic] at hd; cases hd
    | some h =>
      rw [decode_of_dispatch hic] at hd
      obtain ⟨a, b, rfl, rfl⟩ := operands_of_decodeOperands hd
      rw [encode_instr, opcode_of_dispatch hic, List.cons_append]

/-- An operand byte past the instruction's length is dropped (rule R76). -/
theorem Handler.instr_eq_of_len_le_two (hlen : h.len ≤ 2) (a b b' : Byte) : h.instr a b = h.instr a b' := by
  cases h with
  | ldi | mul | add | cmp => exact absurd hlen (by decide)
  | _ => rfl

theorem Handler.instr_eq_of_len_one (hlen : h.len = 1) (a b a' b' : Byte) : h.instr a b = h.instr a' b' := by
  cases h with
  | ret | hlt => rfl
  | _ => exact absurd hlen (by decide)

/-! ## The bits of an opcode byte -/

theorem opcode_high_bits_eq_len (h : Handler) : (h.opcode >>> 6).toNat + 1 = h.len := by
  cases h <;> decide

theorem opcode_bit5_eq_aluOp (h : Handler) : h.opcode.getLsbD 5 = h.aluOp.isSome := by
  cases h <;> decide

theorem opcode_bit4_iff_control (h : Handler) :
    h.opcode.getLsbD 4 = true ↔ h = .call ∨ h = .ret ∨ h = .jmp ∨ h = .jeq ∨ h = .jne := by
  cases h <;> decide

/-! ## The obligations -/

/-- Settles O14: decoding an encoding is one equation per instruction; what decodes is an opcode and its format's operands. -/
theorem decodeInvertsEncode : Obligations.DecodeInvertsEncode := fun _ rest i =>
  ⟨eq_encode_of_decode, fun e => e ▸ decode_encode i rest⟩

/-- Settles O17: each word is an instruction's encoding followed by what is left. -/
theorem writtenOutWordsDecode : Obligations.WrittenOutWordsDecode :=
  ⟨decode_encode (.prn 5) [], decode_encode (.ldi 0 55) [], decode_encode (.mul 0 1) [], decode_encode (.pop 2) [0x47],
   decode_encode (.call 1) [], decode_encode .ret [0x01], decode_encode .hlt []⟩

/-- Settles O18: each of the three patterns, over the 13 handlers. -/
theorem opcodeBitsFollowThePattern : Obligations.OpcodeBitsFollowThePattern := fun h =>
  ⟨opcode_high_bits_eq_len h, opcode_bit5_eq_aluOp h, opcode_bit4_iff_control h⟩

/-- Settles O19: a window decodes to its handler's instruction, which drops the bytes its format does not hold. -/
theorem bytesPastLengthAreIgnored : Obligations.BytesPastLengthAreIgnored := by
  intro ic a b a' b' h hic
  simp only [instr?_decode_window, hic, Option.map_some]
  exact ⟨fun hlen => congrArg some (Handler.instr_eq_of_len_le_two hlen a b b'),
    fun hlen => congrArg some (Handler.instr_eq_of_len_one hlen a b a' b')⟩

end Sys2Proof
end

section
/-! PROOFS. The invariant of a run: what an instruction does to each piece of it, and how a step ends a run. -/

namespace Sys2Proof.Machine

variable {i : Instr} {s t : State}

/-! ## What an instruction keeps of the invariant -/

theorem Effect.wf_mem (e : Effect s i t) (hs : s.mem.wf) : t.mem.wf := by
  cases e with
  | push | call => exact State.wf_memWrite s.spDec _ _ hs
  | _ => exact hs

theorem flLegal_cmpFlags (a b : Byte) : FlLegal (cmpFlags a b) := by
  obtain hlt | heq | hgt := lt_trichotomy a.toNat b.toNat
  · exact .inr (.inr (.inr (cmpFlags_of_lt hlt)))
  · exact .inr (.inl (cmpFlags_of_eq (BitVec.eq_of_toNat_eq heq)))
  · exact .inr (.inr (.inl (cmpFlags_of_gt hgt)))

theorem Effect.flLegal (e : Effect s i t) (hs : FlLegal s.fl) : FlLegal t.fl := by
  cases e with
  | cmp => exact flLegal_cmpFlags _ _
  | _ => exact hs

theorem Effect.fault_eq (e : Effect s i t) (ht : t.run ≠ .faulted) : t.fault = s.fault := by
  cases e with
  | badOperand => exact absurd rfl ht
  | _ => rfl

/-- An instruction ends the run by a fault or by HLT; any other leaves it running. -/
theorem Effect.hlt_of_halted (e : Effect s i t) (hr : s.run = .running) (ht : t.run = .halted) :
    i = .hlt ∧ t = s.halt := by
  cases e with
  | badOperand => cases ht
  | hlt => exact ⟨rfl, rfl⟩
  | _ => cases hr.symm.trans ht

/-! ## What a step keeps of it -/

/-- A step that halts found the byte of HLT at pc, and writes run alone (rule R131). -/
theorem halting_step (h : step s = .next t) (ht : t.run = .halted) :
    s.memRead s.pc = Handler.hlt.opcode ∧ t = s.halt := by
  obtain ⟨hr, ⟨i, hi, he⟩ | ⟨-, rfl⟩⟩ := step_cases h
  · obtain ⟨rfl, rfl⟩ := (effect_of_exec he).hlt_of_halted hr ht
    exact ⟨(State.opcode_of_fetched hi).symm, rfl⟩
  · cases ht

/-- What holds after every instruction fetched, and after DecodeFault, holds after a step. -/
theorem holds_after_step (P : State → Prop) (h : step s = .next t) (run : ∀ i, s.fetched = some i → Effect s i t → P t)
    (undef : P (s.raise .decodeFault (s.memRead s.pc) 0#8)) : P t := by
  obtain ⟨-, ⟨i, hi, he⟩ | ⟨-, rfl⟩⟩ := step_cases h
  · exact run i hi (effect_of_exec he)
  · exact undef

theorem fault_eq_of_step (h : step s = .next t) : t.run ≠ .faulted → t.fault = s.fault :=
  holds_after_step (fun t => t.run ≠ .faulted → t.fault = s.fault) h (fun _ _ e => e.fault_eq) (absurd rfl)

/-- The record a faulting step writes is true of the state it leaves. -/
theorem recordTrue_of_step (h : step s = .next t) (ht : t.run = .faulted) : RecordTrue t := by
  obtain ⟨hd, rfl⟩ | ⟨i, c, hi, hc, rfl⟩ := faulting_step_cases h ht
  · exact ⟨rfl, rfl, .inl ⟨rfl, rfl, hd⟩⟩
  · have hdefined : (dispatch (s.memRead s.pc)).isSome := by
      rw [← State.opcode_of_fetched hi, dispatch_opcode]; rfl
    exact ⟨rfl, rfl, .inr ⟨rfl, ge_of_firstBadOperand hc, hdefined⟩⟩

/-! ## The obligations -/

/-- Settles O43: each piece of the invariant by what an instruction does to it; the state a step leaves at the end of a run
by the two ways a run ends. -/
theorem stepKeepsInvariant : Obligations.StepKeepsInvariant := by
  rintro s t ⟨hwf, hfl, hzero, -, -⟩ h
  obtain ⟨hr, -⟩ := step_cases h
  refine ⟨holds_after_step (fun t => t.mem.wf) h (fun _ _ e => e.wf_mem hwf) hwf,
    holds_after_step (fun t => FlLegal t.fl) h (fun _ _ e => e.flLegal hfl) hfl,
    fun ht => ?_, recordTrue_of_step h, fun ht => ?_⟩
  · rw [fault_eq_of_step h ht, hzero (by rw [hr]; decide)]
  · obtain ⟨hic, rfl⟩ := halting_step h ht
    exact hic

/-- Settles O24: a run halts on the byte of HLT alone and faults on a failed check alone; no step leaves the end of a run. -/
theorem runStateTransitions : Obligations.RunStateTransitions := by
  refine ⟨fun s t h => ?_, fun s => step_ne_next_of_not_running⟩
  obtain ⟨hr, -⟩ := step_cases h
  refine ⟨hr, ⟨fun ht => (halting_step h ht).1, fun hic => ?_⟩, run_faulted_iff_of_step h⟩
  cases h.symm.trans (step_of_hlt_byte hr hic)
  rfl

/-- Settles O23: an instruction fetched answers a next state, and so does DecodeFault. -/
theorem runningStepAlwaysCompletes : Obligations.RunningStepAlwaysCompletes := by
  intro s hr
  cases hf : s.fetched with
  | none => exact ⟨_, step_of_undefined hr hf⟩
  | some i =>
    obtain ⟨t, ht, -⟩ := exec_effect i s
    exact ⟨t, (step_of_fetched hr hf).trans ht⟩

end Sys2Proof.Machine
end

section
/-! PROOFS. A run of bytes in memory (spec/20_memory.md, spec/30_encoding.md): what each address reads after it is stored,
and what the fetch window then holds. -/

namespace Sys2Proof.Machine

/-! ## The bytes stored -/

@[simp] theorem State.storeBytes_pc (s : State) (a : Byte) (vs : List Byte) : (s.storeBytes a vs).pc = s.pc := by
  rw [State.storeBytes_eq]

@[simp] theorem State.storeBytes_run (s : State) (a : Byte) (vs : List Byte) : (s.storeBytes a vs).run = s.run := by
  rw [State.storeBytes_eq]

/-- The offset of an address other than the first, from the first and from the one after it. -/
theorem toNat_sub_eq_succ {x a : Byte} (hx : x ≠ a) : (x - a).toNat = (x - (a + 1#8)).toNat + 1 := by
  bv_omega

/-- An address at offset k from the first reads byte k, and as before where there is none. -/
theorem State.memRead_storeBytes (s : State) (a x : Byte) (vs : List Byte) (hlen : vs.length ≤ 256) :
    (s.storeBytes a vs).memRead x = (vs[(x - a).toNat]?).getD (s.memRead x) := by
  induction vs generalizing s a with
  | nil => rfl
  | cons v vs ih =>
    rw [List.length_cons] at hlen
    rw [State.storeBytes_cons, ih _ _ (by omega), State.memRead_memWrite]
    by_cases hx : x = a
    · subst hx
      have hpast : vs[(x - (x + 1#8)).toNat]? = none := List.getElem?_eq_none (by bv_omega)
      have hfirst : (x - x).toNat = 0 := by bv_omega
      rw [hpast, hfirst]
      simp
    · simp [toNat_sub_eq_succ hx, hx]

/-- Stored from pc on, up to three bytes are the first of the fetch window. -/
theorem State.window_storeBytes (s : State) {vs : List Byte} (hlen : vs.length ≤ 3) :
    (s.storeBytes s.pc vs).window = vs ++ s.window.drop vs.length := by
  have hread := fun x => s.memRead_storeBytes s.pc x vs (by omega)
  have h0 : (s.pc - s.pc).toNat = 0 := by bv_omega
  have h1 : (s.pc + 1#8 - s.pc).toNat = 1 := by bv_omega
  have h2 : (s.pc + 2#8 - s.pc).toNat = 2 := by bv_omega
  simp only [State.window, State.storeBytes_pc, hread, h0, h1, h2]
  match vs, hlen with
  | [], _ => rfl
  | [_], _ => rfl
  | [_, _], _ => rfl
  | [_, _, _], _ => rfl

/-! ## The instruction fetched -/

theorem length_encode_le (i : Instr) : (encode i).length ≤ 3 := by
  cases i <;> simp [encode]

theorem State.fetched_storeBytes_encode (s : State) (i : Instr) : (s.storeBytes s.pc (encode i)).fetched = some i := by
  refine fetched_of_decode (rest := s.window.drop (encode i).length) ?_
  rw [State.window_storeBytes s (length_encode_le i), decode_encode]

theorem State.fetched_withFetchWord (s : State) (nbits w : Nat) :
    (s.withFetchWord nbits w).fetched = decodeTableWord nbits w := by
  have hwindow : (s.storeBytes s.pc (tableBytes nbits w)).window = tableBytes nbits w :=
    State.window_storeBytes s (Nat.le_refl 3)
  exact congrArg (fun bs => (decode bs).instr?) hwindow

/-! ## The obligations -/

/-- Settles O21: the encoding stored at pc is what the window begins with, across 0xFF too, and it decodes to `i`. -/
theorem storedInstructionIsTheOneRun : Obligations.StoredInstructionIsTheOneRun := fun s i hr =>
  step_of_fetched ((s.storeBytes_run _ _).trans hr) (s.fetched_storeBytes_encode i)

/-- Settles O22: the word's three bytes are the whole window. -/
theorem fetchWordIsTheOneRun : Obligations.FetchWordIsTheOneRun := fun s nbits w _ hi =>
  step_of_fetched rfl ((s.fetched_withFetchWord nbits w).trans hi)

end Sys2Proof.Machine
end

section
/-! PROOFS. The image a launch loads, and the invariant at the start of a run (spec/70_reset_and_hazards.md section 1). -/

namespace Sys2Proof.Machine

/-- Reset with any memory in canonical form meets the invariant. -/
theorem inv_reset_mem {m : Memory} (hm : m.wf) : { State.reset with mem := m }.Inv :=
  ⟨hm, .inl rfl, fun _ => rfl, nofun, nofun⟩

/-! ## The obligations -/

/-- Settles O42: the memory of reset lists nothing. -/
theorem resetSatisfiesInvariant : Obligations.ResetSatisfiesInvariant := inv_reset_mem reset_wf

/-- Settles O44: a launch is reset with another memory, and storing keeps the canonical form. -/
theorem launchSatisfiesInvariant : Obligations.LaunchSatisfiesInvariant := by
  intro image t h
  obtain hlen | hlen := Nat.lt_or_ge Config.memSize image.length
  · cases h.symm.trans (load_of_gt State.reset hlen)
  · cases h.symm.trans (load_of_le State.reset hlen)
    rw [State.storeBytes_eq]
    exact inv_reset_mem (State.wf_storeBytes _ _ _ reset_wf)

/-- Settles O45: the load stores from address 0, so the offset of an address is the address. -/
theorem launchLoadsImageAtZero : Obligations.LaunchLoadsImageAtZero := by
  intro image hlen
  refine ⟨_, load_of_le State.reset hlen, fun x => ?_, ?_⟩
  · have hoffset : x - Config.loadAddress = x := BitVec.sub_zero x
    rw [State.memRead_storeBytes _ _ _ _ hlen, hoffset, State.memRead_reset]
  · rw [State.storeBytes_eq]

end Sys2Proof.Machine
end

section
/-! PROOFS. The tables of what a step writes (spec/10_state.md sections 1 and 4, spec/20_memory.md section 1): memory,
registers and pc, first by the instruction and then by the opcode byte. -/

namespace Sys2Proof.Machine

variable {i : Instr} {s t : State} {k : Fin 8}

/-! ## Memory -/

/-- An instruction keeps memory, or is PUSH or CALL and writes the byte at the decremented SP. -/
theorem Effect.mem_cases (e : Effect s i t) :
    MemKept s t ∨ (i.handler ∈ [.push, .call] ∧ MemKeptBut s.spDec.sp s t) := by
  cases e with
  | push | call => exact .inr ⟨by simp [Instr.handler], memKeptBut_memWrite s.spDec _ _⟩
  | _ => exact .inl fun _ => rfl

/-! ## Registers -/

theorem RegsKeptBut.mem_of_ne {l : List (Fin 8)} (h : RegsKeptBut l s t) (hk : t.reg k ≠ s.reg k) : k ∈ l :=
  by_contra fun hn => hk (h k hn)

/-- A register an instruction changes is the one operand A names, or the stack pointer. -/
theorem Effect.reg_cases (e : Effect s i t) (hk : t.reg k ≠ s.reg k) :
    (i.handler ∈ [.ldi, .mul, .add, .pop] ∧ ∃ a, i.regOperands.head? = some a ∧ NamesReg a k) ∨
    (i.handler ∈ [.push, .pop, .call, .ret] ∧ k = 7) := by
  cases e with
  | ldi a _ l ha | mul a _ l _ ha | add a _ l _ ha =>
    obtain rfl := List.mem_singleton.1 ((regsKeptBut_setReg s l _).mem_of_ne hk)
    exact .inl ⟨by simp [Instr.handler], a, rfl, ha⟩
  | pop a l ha =>
    have hkept := (regsKeptBut_setReg s l (s.memRead s.sp)).trans (regsKeptBut_spInc _)
    obtain rfl | h7 := List.mem_cons.1 (hkept.mem_of_ne hk)
    · exact .inl ⟨by simp [Instr.handler], a, rfl, ha⟩
    · exact .inr ⟨by simp [Instr.handler], List.mem_singleton.1 h7⟩
  | push | call => exact .inr ⟨by simp [Instr.handler], List.mem_singleton.1 ((regsKeptBut_spDec s).mem_of_ne hk)⟩
  | ret => exact .inr ⟨by simp [Instr.handler], List.mem_singleton.1 ((regsKeptBut_spInc s).mem_of_ne hk)⟩
  | _ => exact absurd rfl hk

/-- An instruction's first register-index operand is byte A of its window. -/
theorem eq_operandA_of_head? {h : Handler} {a b x : Byte} (hx : (h.instr a b).regOperands.head? = some x) : x = a := by
  cases h with
  | ret | hlt => cases hx
  | _ => exact (Option.some.inj hx).symm

theorem eq_operandA_of_fetched {a : Byte} (hi : s.fetched = some i) (ha : i.regOperands.head? = some a) :
    a = s.memRead (s.pc + 1#8) := by
  rw [fetched_shape hi] at ha
  exact eq_operandA_of_head? ha

/-! ## pc -/

/-- What an instruction makes of pc where it neither halts nor faults (rule R28). -/
def NextPc (s : State) (p : Byte) : Instr → Prop
  | .prn _ => p = s.pc + 2#8
  | .ldi _ _ => p = s.pc + 3#8
  | .mul _ _ => p = s.pc + 3#8
  | .add _ _ => p = s.pc + 3#8
  | .cmp _ _ => p = s.pc + 3#8
  | .push _ => p = s.pc + 2#8
  | .pop _ => p = s.pc + 2#8
  | .call a => ∃ k, NamesReg a k ∧ p = s.spDec.reg k
  | .ret => p = s.memRead s.sp
  | .jmp a => ∃ k, NamesReg a k ∧ p = s.reg k
  | .jeq a => (s.flE = true → ∃ k, NamesReg a k ∧ p = s.reg k) ∧ (s.flE = false → p = s.pc + 2#8)
  | .jne a => (s.flE = false → ∃ k, NamesReg a k ∧ p = s.reg k) ∧ (s.flE = true → p = s.pc + 2#8)
  | .hlt => p = s.pc

theorem Effect.nextPc (e : Effect s i t) (ht : t.run ≠ .faulted) : NextPc s t.pc i := by
  cases e with
  | badOperand => exact absurd rfl ht
  | call _ k ha | jmp _ k ha => exact ⟨k, ha, rfl⟩
  | jeqTaken _ k hf ha | jneTaken _ k hf ha => exact ⟨fun _ => ⟨k, ha, rfl⟩, fun h => absurd (hf.symm.trans h) nofun⟩
  | jeqNot _ hf | jneNot _ hf => exact ⟨fun h => absurd (hf.symm.trans h) nofun, fun _ => rfl⟩
  | _ => rfl

theorem nextPc_of_step (h : step s = .next t) (ht : t.run = .running) (op : Handler) (hop : s.memRead s.pc = op.opcode) :
    NextPc s t.pc (op.instr (s.memRead (s.pc + 1#8)) (s.memRead (s.pc + 2#8))) := by
  obtain ⟨hr, -⟩ := step_cases h
  have he := (step_of_fetched hr (fetched_of_opcode op hop)).symm.trans h
  exact (effect_of_exec he).nextPc (by rw [ht]; decide)

/-- The end of a run leaves pc (rules R131, R150). -/
theorem pc_eq_of_ended (h : step s = .next t) (ht : t.run ≠ .running) : t.pc = s.pc := by
  cases hrun : t.run with
  | running => exact absurd hrun ht
  | halted =>
    obtain ⟨-, rfl⟩ := halting_step h hrun
    rfl
  | faulted =>
    obtain ⟨cause, info, rfl⟩ := faultIsPrecise s t h hrun
    rfl

/-! ## The obligations -/

/-- Settles O32: no instruction but PUSH and CALL, and no fault, writes memory. -/
theorem onlyPushAndCallWriteMemory : Obligations.OnlyPushAndCallWriteMemory := by
  intro s t h x hx
  obtain ⟨-, ⟨i, hi, he⟩ | ⟨-, rfl⟩⟩ := step_cases h
  · obtain hkept | ⟨hop, hkept⟩ := (effect_of_exec he).mem_cases
    · exact absurd (hkept x) hx
    · have hbyte := List.mem_map_of_mem (f := Handler.opcode) hop
      rw [State.opcode_of_fetched hi] at hbyte
      exact ⟨by simpa [Handler.opcode] using hbyte, by_contra fun hne => hx (hkept x hne)⟩
  · exact absurd rfl hx

/-- Settles O33: the registers an instruction changes, with operand A read at pc + 1. -/
theorem registersWrittenByEachOpcode : Obligations.RegistersWrittenByEachOpcode := by
  intro s t h k hk
  obtain ⟨-, ⟨i, hi, he⟩ | ⟨-, rfl⟩⟩ := step_cases h
  · rw [← State.opcode_of_fetched hi]
    obtain ⟨hop, a, ha, hname⟩ | ⟨hop, hk⟩ := (effect_of_exec he).reg_cases hk
    · exact .inl ⟨List.mem_map_of_mem (f := Handler.opcode) hop, eq_operandA_of_fetched hi ha ▸ hname⟩
    · exact .inr ⟨List.mem_map_of_mem (f := Handler.opcode) hop, hk⟩
  · exact absurd rfl hk

/-- Settles O34: one row of `NextPc` per opcode byte. -/
theorem newProgramCounterByOpcode : Obligations.NewProgramCounterByOpcode := by
  refine fun s t h => ⟨pc_eq_of_ended h, fun ht => ?_⟩
  have row := nextPc_of_step h ht
  refine ⟨fun hop => ?_, fun hop => ?_, row .call, row .ret, row .jmp, fun hop => (row .jeq hop).1,
    fun hop => (row .jeq hop).2, fun hop => (row .jne hop).1, fun hop => (row .jne hop).2⟩
  · simp only [List.mem_cons, List.not_mem_nil, or_false] at hop
    obtain hop | hop | hop := hop
    · exact row .prn hop
    · exact row .push hop
    · exact row .pop hop
  · simp only [List.mem_cons, List.not_mem_nil, or_false] at hop
    obtain hop | hop | hop | hop := hop
    · exact row .ldi hop
    · exact row .mul hop
    · exact row .add hop
    · exact row .cmp hop

end Sys2Proof.Machine
end

section
/-! PROOFS. Instructions in sequence (spec/42_stack.md, 43_control.md, 20_memory.md section 4): what PUSH and CALL leave for
the POP, the RET or the fetch after them. -/

namespace Sys2Proof.Machine

variable (s : State) {i : Fin 8}

/-! ## Registers across a pair of instructions -/

theorem State.setReg_reg_self (i : Fin 8) : s.setReg i (s.reg i) = s := by
  have hregs : s.regs.set i (s.regs.get i) = s.regs := RegFile.ext_get _ _ fun k => by
    rw [RegFile.get_set]
    split
    · next hk => rw [hk]
    · rfl
  rw [State.setReg, State.reg, hregs]

/-- SPinc undoes SPdec. -/
theorem reg_spInc_spDec (k : Fin 8) : s.spDec.spInc.reg k = s.reg k := by
  rw [State.reg_spInc, State.sp_spDec, BitVec.sub_add_cancel, State.reg_spDec]
  split
  · next hk => rw [hk, State.sp_eq_reg]
  · rfl

/-- The increment of SP and the write of another register do not meet. -/
theorem reg_spInc_setReg {j : Fin 8} (v : Byte) (hj : j ≠ 7) (k : Fin 8) :
    (s.setReg j v).spInc.reg k = if k = j then v else s.spInc.reg k := by
  by_cases hk : k = j
  · rw [if_pos hk, hk, reg_spInc_setReg_same s v hj]
  · rw [if_neg hk, State.reg_spInc, State.sp_setReg, if_neg hj, State.reg_setReg, if_neg hk, State.reg_spInc]

/-! ## The state PUSH leaves -/

/-- PUSH of register `i` (rule R116), as POP and the next fetch find it. -/
def pushed (i : Fin 8) : State := (s.spDec.memWrite s.spDec.sp (s.spDec.reg i)).advance 2#8

/-- The byte at SP is the register pushed, R7 too. -/
theorem memRead_sp_pushed (i : Fin 8) : (pushed s i).memRead (pushed s i).sp = (pushed s i).reg i :=
  State.memRead_memWrite_same s.spDec s.spDec.sp (s.spDec.reg i)

theorem reg_pushed_of_ne (hi : i ≠ 7) : (pushed s i).reg i = s.reg i :=
  regsKeptBut_spDec s i (mt List.mem_singleton.1 hi)

theorem reg_spInc_pushed (i k : Fin 8) : (pushed s i).spInc.reg k = s.reg k :=
  reg_spInc_spDec s k

/-! ## POP after PUSH -/

/-- POP of the register pushed loads into it what it holds. -/
theorem reg_pop_same_pushed (i k : Fin 8) :
    ((pushed s i).setReg i ((pushed s i).memRead (pushed s i).sp)).spInc.reg k = s.reg k := by
  rw [memRead_sp_pushed, State.setReg_reg_self, reg_spInc_pushed]

/-- POP of another register than R7 loads into it the register pushed, and restores the rest. -/
theorem reg_pop_pushed {j : Fin 8} (hi : i ≠ 7) (hj : j ≠ 7) (k : Fin 8) :
    ((pushed s i).setReg j ((pushed s i).memRead (pushed s i).sp)).spInc.reg k = if k = j then s.reg i else s.reg k := by
  rw [reg_spInc_setReg _ _ hj, memRead_sp_pushed, reg_pushed_of_ne s hi, reg_spInc_pushed]

/-! ## The obligations -/

/-- Settles O36: POP's two writes over the state PUSH leaves, register by register. -/
theorem pushThenPopRoundTrips : Obligations.PushThenPopRoundTrips := by
  intro s a i ha
  refine ⟨pushed s i, exec_push_of_names s ha, ?_, fun b j hb hi hj => ?_⟩
  · exact ⟨_, exec_pop_of_names _ ha, fun k _ => reg_pop_same_pushed s i k, rfl, rfl, rfl⟩
  · have hreg := reg_pop_pushed s hi hj
    refine ⟨_, exec_pop_of_names _ hb, (hreg j).trans (if_pos rfl), (hreg 7).trans (if_neg hj.symm), fun k hk => ?_⟩
    exact (hreg k).trans (if_neg (List.ne_of_not_mem_cons hk))

/-- Settles O37: RET reads the return address at the SP that CALL left, and SPinc undoes CALL's SPdec. -/
theorem retResumesAfterCall : Obligations.RetResumesAfterCall := by
  intro s a i ha
  refine ⟨_, exec_call_of_names s ha, fun u hsp hbyte => ⟨_, exec_ret_eq u, ?_, ?_, ?_, fun _ => rfl⟩⟩
  · have hreturn : u.memRead u.sp = s.pc + 2#8 := by
      rw [hsp, hbyte]
      exact State.memRead_memWrite_same s.spDec s.spDec.sp (s.pc + 2#8)
    exact (congrArg BitVec.toNat hreturn).trans (toNat_pc_advance s 2#8)
  · rw [State.sp_spInc, State.setPc_sp, hsp]
    exact (State.sp_spInc s.spDec).symm.trans (reg_spInc_spDec s 7)
  · exact regsKeptBut_spInc (u.setPc (u.memRead u.sp))

/-- Settles O38: the address pushed to is the new pc, so the byte fetched there is the one pushed. -/
theorem pushedByteIsFetchedNext : Obligations.PushedByteIsFetchedNext := by
  intro s i hr hop hname hi hsp
  have hstep : step s = .next (pushed s i) :=
    (step_of_fetched hr (fetched_of_opcode .push hop)).trans (exec_push_of_names s hname)
  have hrun : (pushed s i).run = .running := hr
  have hbyte : (pushed s i).memRead (pushed s i).pc = s.reg i := by
    have hpc : (pushed s i).pc = (pushed s i).sp := hsp.symm
    rw [hpc, memRead_sp_pushed, reg_pushed_of_ne s hi]
  refine ⟨pushed s i, hstep, hrun, rfl, hbyte, ?_⟩
  rw [← hbyte]
  exact ⟨step_of_hlt_byte hrun, step_of_undefined_byte hrun⟩

end Sys2Proof.Machine
end

section
/-! PROOFS. Runs of several steps (spec/70_reset_and_hazards.md section 3), by induction on their number. -/

namespace Sys2Proof.Machine

variable {s t u : State} {n m : Nat}

/-- Before the last step of a run the state is RUNNING, since a step was taken from it. -/
theorem running_before_end (h : core.run n s = .next t) {k : Nat} (hk : k < n) :
    ∃ u : State, core.run k s = .next u ∧ u.run = .running := by
  induction n generalizing s k with
  | zero => exact absurd hk (Nat.not_lt_zero k)
  | succ n ih =>
    obtain ⟨v, hstep, hrest⟩ := step_of_run_succ h
    cases k with
    | zero => exact ⟨s, rfl, (step_cases hstep).1⟩
    | succ k =>
      rw [run_succ_of_next k hstep]
      exact ih hrest (Nat.lt_of_succ_lt_succ hk)

/-- A run that has ended is not the beginning of a longer one. -/
theorem not_lt_of_ended (hn : core.run n s = .next t) (hm : core.run m s = .next u) (ht : t.run ≠ .running) :
    ¬ n < m := by
  intro hlt
  obtain ⟨v, hv, hrun⟩ := running_before_end hm hlt
  cases hn.symm.trans hv
  exact ht hrun

/-- A step back to its own state repeats forever. -/
theorem run_of_fixed (h : step s = .next s) (n : Nat) : core.run n s = .next s := by
  induction n with
  | zero => exact run_zero s
  | succ n ih => exact (run_succ_of_next n h).trans ih

/-! ## The obligations -/

/-- Settles O39: a state before the last of a run is RUNNING, so neither of two ended runs is longer than the other. -/
theorem runEndsAfterAUniqueNumberOfSteps : Obligations.RunEndsAfterAUniqueNumberOfSteps := by
  refine ⟨fun n s t h k => running_before_end h, fun n m s t u hn hm ht hu => ?_⟩
  obtain rfl : n = m := Nat.le_antisymm (Nat.not_lt.1 (not_lt_of_ended hm hn hu)) (Nat.not_lt.1 (not_lt_of_ended hn hm ht))
  exact ⟨rfl, Host.Outcome.next.inj (hn.symm.trans hm)⟩

/-- Settles O40: the JMP writes pc with what it holds, so the step answers the state it started from. -/
theorem jumpToItselfHangs : Obligations.JumpToItselfHangs := by
  intro s i hr hop hname hpc
  have hstep : step s = .next (s.setPc (s.reg i)) :=
    (step_of_fetched hr (fetched_of_opcode .jmp hop)).trans (jumpReg_of_names .jmp s hname)
  rw [hpc] at hstep
  exact run_of_fixed hstep

end Sys2Proof.Machine
end

section
/-! PROOFS. The host's text: the numerals of the output (spec/40_output_load.md) and a line of a program file
(spec/30_encoding.md section 6). -/

namespace Sys2Proof.Machine

/-! ## Numerals -/

/-- The character of a digit is the library's. -/
theorem digitChar_eq (n : Nat) : digitChar n = (n % 10).digitChar := by
  have hlt : n % 10 < 10 := Nat.mod_lt n (by decide)
  have hdigit : ∀ d : Fin 10, Char.ofNat (48 + d) = Nat.digitChar d := by decide
  exact hdigit ⟨n % 10, hlt⟩

/-- The numeral of a byte by its number of digits, each cut off by the library's recursion (rule R92). -/
theorem decimal_eq_toDigits (v : Byte) : decimal v = Nat.toDigits 10 v.toNat := by
  have hlt : v.toNat < 256 := v.isLt
  have hten : (1 : Nat) < 10 := by decide
  simp only [decimal, digitChar_eq]
  split
  · next h1 => rw [Nat.toDigits_of_lt_base h1, Nat.mod_eq_of_lt h1]
  · next h1 =>
    rw [Nat.toDigits_of_base_le hten (by omega)]
    split
    · next h2 =>
      rw [Nat.toDigits_of_lt_base (by omega), Nat.mod_eq_of_lt (by omega : v.toNat / 10 < 10)]
      rfl
    · next h2 =>
      rw [Nat.toDigits_of_base_le hten (by omega), Nat.toDigits_of_lt_base (by omega), Nat.div_div_eq_div_mul,
        Nat.mod_eq_of_lt (by omega : v.toNat / 100 < 10)]
      rfl

/-! ## A line of a program file -/

/-- The digit of a bit. -/
def bitChar (b : Bool) : Char := if b then '1' else '0'

theorem binaryDigit_bitChar (b : Bool) : binaryDigit (bitChar b) = some b.toNat := by
  cases b <;> decide

/-- The number whose binary digits, most significant first, follow those of `acc`. -/
def bitsValue (acc : Nat) (bits : List Bool) : Nat := bits.foldl (fun n b => 2 * n + b.toNat) acc

theorem binaryLiteral_bits (bits : List Bool) (acc : Nat) (after : List Char) :
    binaryLiteral bits.length acc (bits.map bitChar ++ after) = some (bitsValue acc bits) := by
  induction bits generalizing acc with
  | nil => rfl
  | cons b bits ih =>
    simp only [List.length_cons, List.map_cons, List.cons_append, binaryLiteral, binaryDigit_bitChar]
    exact ih _

/-- The first k bits of a word, as a number, are the word without the others. -/
theorem bitsValue_getMsbD {w : Nat} (b : BitVec w) {k : Nat} (hk : k ≤ w) :
    bitsValue 0 ((List.range k).map b.getMsbD) = b.toNat / 2 ^ (w - k) := by
  induction k with
  | zero => exact (Nat.div_eq_of_lt b.isLt).symm
  | succ k ih =>
    have hbit : (b.getMsbD k).toNat = b.toNat / 2 ^ (w - (k + 1)) % 2 := by
      rw [BitVec.getMsbD_eq_getLsbD, decide_eq_true (Nat.lt_of_succ_le hk), Bool.true_and, ← BitVec.testBit_toNat, Nat.toNat_testBit,
        Nat.sub_sub, Nat.add_comm 1 k]
    have hpow : 2 ^ (w - k) = 2 ^ (w - (k + 1)) * 2 := by rw [← pow_succ]; congr 1; omega
    have hstep : bitsValue 0 ((List.range (k + 1)).map b.getMsbD) =
        2 * bitsValue 0 ((List.range k).map b.getMsbD) + (b.getMsbD k).toNat := by
      simp [bitsValue, List.range_succ]
    rw [hstep, ih (Nat.le_of_succ_le hk), hbit, hpow, ← Nat.div_div_eq_div_mul, Nat.div_add_mod]

/-- A line that begins with a literal is significant: it begins with a digit. -/
theorem parseLine_of_binaryLiteral {cs : List Char} {n : Nat} (h : binaryLiteral 8 0 cs = some n) :
    parseLine cs = .byte (BitVec.ofNat 8 n) := by
  cases cs with
  | nil => cases h
  | cons c rest =>
    cases hc : binaryDigit c with
    | none => simp [binaryLiteral, hc] at h
    | some d => simp only [parseLine, hc, h]

theorem parseLine_of_binaryDigit_none {c : Char} (rest : List Char) (hc : binaryDigit c = none) :
    parseLine (c :: rest) = .ignored := by
  simp only [parseLine, hc]

/-! ## The obligations -/

/-- Settles O47: the numeral is the library's by its number of digits, and the text of a stream is byte by byte. -/
theorem outputTextIsDecimalLines : Obligations.OutputTextIsDecimalLines := by
  refine ⟨fun v => ?_, fun s v => ?_⟩
  · rw [renderByte, decimal_eq_toDigits]
  · rw [State.printed, State.emit_output, List.flatMap_append, List.flatMap_singleton, State.printed]

/-- Settles O48: the literal's value by its digits, which for the eight bits of a byte is the byte. -/
theorem programLineGivesItsByte : Obligations.ProgramLineGivesItsByte := by
  refine ⟨fun b after => ?_, fun c after h0 h1 => ?_, rfl⟩
  · have hliteral := binaryLiteral_bits ((List.range 8).map b.getMsbD) 0 after
    rw [bitsValue_getMsbD b (Nat.le_refl 8), List.map_map] at hliteral
    have hparse := parseLine_of_binaryLiteral hliteral
    rw [Nat.sub_self, pow_zero, Nat.div_one, BitVec.ofNat_toNat, BitVec.setWidth_eq] at hparse
    exact hparse
  · exact parseLine_of_binaryDigit_none after (by rw [binaryDigit, if_neg h0, if_neg h1])

end Sys2Proof.Machine
end
